-- ==== Sys2Proof/Word.lean ====
section
/-! DEFINITION. The two widths of the machine (spec/00_scope.md R4): the 8-bit byte and the 16-bit address. -/

namespace Sys2Proof

/-- A u8: the content of A, X, Y, SP and of one memory cell (R4, data width). -/
abbrev Byte := BitVec 8

/-- A u16: the PC, a memory address, and the 16-bit words JSR reads and writes (R4, address width). -/
abbrev Addr := BitVec 16

end Sys2Proof
end

