-- ==== Sys2Proof/Syntax.lean ====
section
/-! DEFINITION. The four instructions of spec/30_encoding.md R40, and the rows of its opcode map as data. -/

namespace Sys2Proof

/-- The rows of spec/opcode_table.json by name: `LDA__imm8`, `LDA_zp8`, `LDA_zp8_X`, `JSR_abs16` (R40). -/
inductive Mnemonic where
  | ldaImm
  | ldaZp
  | ldaZpX
  | jsrAbs
  deriving DecidableEq, Repr

/-- The operand formats of R39: what follows the opcode byte. -/
inductive OperandFormat where
  /-- One byte, the operand value. -/
  | imm8
  /-- One byte, a zero-page address. -/
  | zp8
  /-- One byte, a zero-page base address that X indexes. -/
  | zpx8
  /-- Two bytes, bits 7:0 of the target and then bits 15:8. -/
  | abs16
  deriving DecidableEq, Repr

/-- An instruction with its operands, one constructor per row of spec/opcode_table.json (R39, R40). -/
inductive Instr where
  /-- R54, `LDA #imm8`: load A with the operand byte. -/
  | ldaImm (imm : Byte)
  /-- R55, `LDA zp8`: load A from a zero-page address. -/
  | ldaZp (zp : Byte)
  /-- R56, `LDA zp8,X`: load A from a zero-page address indexed by X. -/
  | ldaZpX (zp : Byte)
  /-- R59, `JSR abs16`: push the return address and go to the target. -/
  | jsrAbs (target : Addr)
  deriving DecidableEq, Repr

/-- The row of the opcode map an instruction belongs to. -/
def Instr.mnemonic : Instr → Mnemonic
  | .ldaImm _ => .ldaImm
  | .ldaZp _ => .ldaZp
  | .ldaZpX _ => .ldaZpX
  | .jsrAbs _ => .jsrAbs

/-- One row of the opcode map R40. The match is on all eight bits of the opcode byte. -/
structure OpcodeRow where
  opcode : Byte
  mnemonic : Mnemonic
  format : OperandFormat
  deriving DecidableEq, Repr

end Sys2Proof
end

