-- ==== Sys2Proof/WellFormed.lean ====
section
/-! DEFINITION. What is checked of an instruction and of an opcode map. Operand ranges are carried by the types, and
R43 makes every operand value legal, so the checks with content are those of the map the decoder is built from. -/

namespace Sys2Proof

/-- R43: "Operand bytes are never checked: every value of `imm8`, `zp8`, `lo` and `hi` is legal." -/
def Instr.wellFormed : Instr → Bool
  | .ldaImm _ => true
  | .ldaZp _ => true
  | .ldaZpX _ => true
  | .jsrAbs _ => true

/-- R38, R40: the opcode byte alone decides the instruction, so no two rows share one. -/
def OpcodeRow.opcodesDistinct (rows : List OpcodeRow) : Bool :=
  decide (rows.map OpcodeRow.opcode).Nodup

/-- R40: a mnemonic has one row. -/
def OpcodeRow.mnemonicsDistinct (rows : List OpcodeRow) : Bool :=
  decide (rows.map OpcodeRow.mnemonic).Nodup

/-- R40: each of the four handled instructions has a row. -/
def OpcodeRow.mnemonicsPresent (rows : List OpcodeRow) : Bool :=
  [Mnemonic.ldaImm, .ldaZp, .ldaZpX, .jsrAbs].all fun m => rows.any fun r => r.mnemonic == m

/-- An opcode map a decoder can be built from. -/
def OpcodeRow.tableWellFormed (rows : List OpcodeRow) : Bool :=
  OpcodeRow.opcodesDistinct rows && OpcodeRow.mnemonicsDistinct rows && OpcodeRow.mnemonicsPresent rows

end Sys2Proof
end

