-- ==== Sys2Proof/Decode.lean ====
section
/-! DEFINITION. The opcode map, the decoder, total on any bytes, and the encoder (spec/30_encoding.md R38 to R43). -/

namespace Sys2Proof

/-- R40, the one place where opcode bytes stand. PRESUMED (unsafe): the values are the spec's decision D1, the
MOS 6502's, and not its source's (log entry 1). -/
def opcodeOf : Mnemonic → Byte
  | .ldaImm => 0xA9#8
  | .ldaZp => 0xA5#8
  | .ldaZpX => 0xB5#8
  | .jsrAbs => 0x20#8

/-- R39, R40: the operand format of each row. -/
def formatOf : Mnemonic → OperandFormat
  | .ldaImm => .imm8
  | .ldaZp => .zp8
  | .ldaZpX => .zpx8
  | .jsrAbs => .abs16

/-- The opcode map R40 as rows, which decoding searches. -/
def opcodeTable : List OpcodeRow :=
  [Mnemonic.ldaImm, .ldaZp, .ldaZpX, .jsrAbs].map fun m => ⟨opcodeOf m, m, formatOf m⟩

/-- R39, column "length": bytes of an instruction, its opcode byte included. -/
def OperandFormat.length : OperandFormat → Nat
  | .imm8 => 2
  | .zp8 => 2
  | .zpx8 => 2
  | .abs16 => 3

/-- R38: the length is decided by the opcode alone. -/
def Instr.length (i : Instr) : Nat :=
  (formatOf i.mnemonic).length

/-- `hi : lo` (spec/00_scope.md section 5; R41, row ABS16): `hi * 256 + lo`. -/
def wordOfBytes (hi lo : Byte) : Addr :=
  hi ++ lo

/-- `w[7:0]`. -/
def lowByte (w : Addr) : Byte :=
  w.extractLsb' 0 8

/-- `w[15:8]`. -/
def highByte (w : Addr) : Byte :=
  w.extractLsb' 8 8

/-- Why bytes are not an instruction. -/
inductive DecodeError where
  /-- R42: the first byte matches no row of the opcode map. -/
  | unhandledOpcode (opcode : Byte)
  /-- The byte list ends inside the instruction. A fetch from memory never meets this: every address exists (R21). -/
  | truncated (mnemonic : Mnemonic)
  /-- The byte list is empty. -/
  | noBytes
  deriving DecidableEq, Repr

/-- R46, R47: which row an opcode byte selects, all eight bits matched; none for the other 252 values (R42). -/
def decodeOpcode (op : Byte) : Option Mnemonic :=
  (opcodeTable.find? fun r => r.opcode == op).map OpcodeRow.mnemonic

/-- R38, R39, R41: read one instruction from the front of a byte list, and answer the bytes after it. -/
def decode : List Byte → Except DecodeError (Instr × List Byte)
  | [] => .error .noBytes
  | op :: operands =>
    match decodeOpcode op, operands with
    | none, _ => .error (.unhandledOpcode op)
    | some .ldaImm, imm :: rest => .ok (.ldaImm imm, rest)
    | some .ldaZp, zp :: rest => .ok (.ldaZp zp, rest)
    | some .ldaZpX, zp :: rest => .ok (.ldaZpX zp, rest)
    | some .jsrAbs, lo :: hi :: rest => .ok (.jsrAbs (wordOfBytes hi lo), rest)
    | some m, _ => .error (.truncated m)

/-- R39: the operand bytes of an instruction, at increasing addresses. -/
def encodeOperands : Instr → List Byte
  | .ldaImm imm => [imm]
  | .ldaZp zp => [zp]
  | .ldaZpX zp => [zp]
  | .jsrAbs target => [lowByte target, highByte target]

/-- R39, R40: the bytes of an instruction, the opcode first. -/
def encode (i : Instr) : List Byte :=
  opcodeOf i.mnemonic :: encodeOperands i

/-- An instruction numbered as spec/opcode_table.json numbers bits (bit 0 in the first byte), laid out as three bytes
at increasing addresses; bits from `nbits` up are 0. -/
def tableWordBytes (nbits w : Nat) : List Byte :=
  let bits := w % 2 ^ nbits
  [BitVec.ofNat 8 bits, BitVec.ofNat 8 (bits / 256), BitVec.ofNat 8 (bits / 65536)]

/-- The instruction the decoder reads from a table word. -/
def decodeTableWord (nbits w : Nat) : Option Instr :=
  match decode (tableWordBytes nbits w) with
  | .ok (i, _) => some i
  | .error _ => none

end Sys2Proof
end

