-- ==== Sys2Proof/Config.lean ====
section
/-! DEFINITION. What the spec fixes for the machine as a whole (spec/00_scope.md R4), and the type of the one value
it keeps as a parameter. The spec leaves no value of a running instruction open, so there is no free value here. -/

namespace Sys2Proof

/-- R4, R18: the store has 65536 cells, at the addresses 0x0000 to 0xFFFF. -/
def memorySize : Nat := 65536

/-- R4, last column: the values the spec leaves to the model as arguments. There is one. Its default is
`Machine.defaultParams`; a machine carries its own in `Machine.State.params` (log entry 20). -/
structure Params where
  /-- R58 `jsr_sp_delta`: what JSR adds to SP, modulo 2^8. -/
  jsrSpDelta : Byte
  deriving DecidableEq, Repr

end Sys2Proof
end

