-- ==== Sys2Proof/Machine/Params.lean ====
section
/-! DEFINITION. The value this spec takes for the model's one argument (spec/42_subroutine_call.md R58). -/

namespace Sys2Proof.Machine

/-- R58: `jsr_sp_delta` "is a parameter of the model whose value for this spec is 2" (the spec's decision D4, log
entry 3). The default only: a machine's own value is `State.params` (log entry 20). -/
def defaultParams : Params := { jsrSpDelta := 2#8 }

end Sys2Proof.Machine
end

