-- ==== Sys2Proof/Machine/State.lean ====
section
/-! DEFINITION. The state of the machine, exactly the components of spec/10_state.md R6, as plain data, and the model's
argument (R4) that goes with it; why a step can
stop; and the state after reset (R17). -/

namespace Sys2Proof.Machine

/-- Memory (R18): the cells that do not hold 0x00, as (address, byte) pairs with addresses strictly rising. What an
unlisted address reads as, and the operations that keep this form, are in `Machine/Ops.lean`. -/
abbrev Memory := List Host.Cell

/-- R14: the run status. -/
inductive Status where
  /-- No fault since the last Reset. -/
  | running
  /-- Halted by an unhandled opcode: the opcode byte, and the address it was fetched from (R65). -/
  | faulted (opcode : Byte) (addr : Addr)
  deriving DecidableEq, Repr

/-- R6: "The state of the CORE is exactly the following, and nothing else is architectural": every field but the last,
which is the model's argument and fixed for a machine. -/
structure State where
  /-- R18: the 64 KiB store, which holds the program too. -/
  mem : Memory
  /-- R7: the address of the next opcode byte. -/
  pc : Addr
  /-- R8: an offset into the stack page. -/
  sp : Byte
  /-- R9: the accumulator. -/
  a : Byte
  /-- R10: index register X. -/
  x : Byte
  /-- R10: index register Y. -/
  y : Byte
  /-- R11: Carry. -/
  flagC : Bool
  /-- R11: Zero. -/
  flagZ : Bool
  /-- R11: Interrupt-disable; it masks nothing (R63). -/
  flagI : Bool
  /-- R11: Decimal. -/
  flagD : Bool
  /-- R11: Break. -/
  flagB : Bool
  /-- R11: Overflow. -/
  flagV : Bool
  /-- R11: Negative. -/
  flagN : Bool
  /-- R13: the cycle budget of the current `Execute` call, a signed integer that may go negative; after the call, what
  was left of it. -/
  cycles : Int
  /-- R14: the run status. -/
  status : Status
  /-- The model's own field (R4, R58; DESIGN CHOICE, safe, log entry 20): the machine's `jsr_sp_delta`. No step and no host
  operation writes it. -/
  params : Params
  deriving DecidableEq, Repr

/-- Why the machine stops. -/
inductive Fault where
  /-- Raised by `step` on a state whose status is already `faulted`: the machine halted on the opcode byte `opcode`
  fetched from `addr`, and only Reset restarts it (R53, R65, R67). Taking the fault is itself a next state
  (`takeUnhandledOpcode`). Safe: the state stays as the fault left it and no further behaviour is claimed
  (log entry 6). -/
  | unhandledOpcode (opcode : Byte) (addr : Addr)
  deriving DecidableEq, Repr

/-- Why an instruction has no meaning. -/
inductive Refusal where
  /-- For an arm of `exec` without a meaning. No arm raises it: all four instructions have one. Safe. -/
  | notModelled (mnemonic : String)
  deriving DecidableEq, Repr

/-- R17, the state after Reset. Memory lists nothing: every byte is 0x00 (R19). `sp` is the spec's decision D2 (log
entry 2). DESIGN CHOICE (unsafe): R17 gives `cycles` no value outside an `Execute` call; the model holds 0 (log
entry 4). `params` is the default of R58. -/
def State.reset : State where
  mem := []
  pc := 0xFFFC#16
  sp := 0x00#8
  a := 0x00#8
  x := 0x00#8
  y := 0x00#8
  flagC := false
  flagZ := false
  flagI := false
  flagD := false
  flagB := false
  flagV := false
  flagN := false
  cycles := 0
  status := .running
  params := defaultParams

end Sys2Proof.Machine
end

