-- ==== Sys2Proof/Machine/Operands.lean ====
section
/-! DEFINITION. Effective addresses (spec/30_encoding.md R41, spec/42_subroutine_call.md R57). -/

namespace Sys2Proof.Machine

/-- `zext_16(b)`: the u16 with the same value. -/
def zext16 (b : Byte) : Addr :=
  b.setWidth 16

/-- R41, row ZP8: the operand byte "used directly as a low-memory address". -/
def zeroPageAddr (zp : Byte) : Addr :=
  zext16 zp

/-- R41, row ZPX8: `zext_16((zp8 + X) mod 2^8)`, "no carry into a high byte". -/
def zeroPageXAddr (zp x : Byte) : Addr :=
  zext16 (zp + x)

/-- R57: `StackAddr(s) = 0x0100 + s` (the spec's decision D3, log entry 3). -/
def stackAddr (sp : Byte) : Addr :=
  0x0100#16 + zext16 sp

/-- R59: the return address, "Program Counter minus one", from the PC after the operand fetch. -/
def returnAddr (pcAfter : Addr) : Addr :=
  pcAfter - 1

end Sys2Proof.Machine
end

