-- ==== Sys2Proof/Machine/Ops.lean ====
section
/-! DEFINITION. The named operations over memory and registers (spec/20_memory.md), the taking of the one fault of the
machine (spec/60_exceptions.md R64), and Reset, the only way out of it (spec/70_reset_and_hazards.md R78, R79). -/

namespace Sys2Proof.Machine

/-! ### The store -/

/-- R19: "sets every address in the store to 0": what an address that `Memory` does not list reads as. -/
def Memory.unlisted : Byte := 0x00#8

/-- R20: the byte at an address. -/
def Memory.read : Memory → Nat → Byte
  | [], _ => Memory.unlisted
  | (k, v) :: m, key => if k = key then v else Memory.read m key

/-- The store without its entry for an address. -/
def Memory.erase : Memory → Nat → Memory
  | [], _ => []
  | (k, v) :: m, key => if k = key then Memory.erase m key else (k, v) :: Memory.erase m key

/-- Put an entry in front of the first larger address. -/
def Memory.insert : Memory → Nat → Byte → Memory
  | [], key, byte => [(key, byte)]
  | (k, v) :: m, key, byte =>
    if key < k then (key, byte) :: (k, v) :: m else (k, v) :: Memory.insert m key byte

/-- R22: one cell changes. An entry equal to what an unlisted address reads as is not listed. -/
def Memory.write (m : Memory) (key : Nat) (byte : Byte) : Memory :=
  if byte = Memory.unlisted then Memory.erase m key else Memory.insert (Memory.erase m key) key byte

/-- `Memory.wf` of the entries from address `low` up. -/
def Memory.wfFrom : Nat → Memory → Bool
  | _, [] => true
  | low, (k, v) :: m =>
    decide (low ≤ k) && decide (k < memorySize) && decide (v ≠ Memory.unlisted) && Memory.wfFrom (k + 1) m

/-- The canonical form: addresses strictly rising and inside the store (R18, R21), and no entry equal to what an
unlisted address reads as. -/
def Memory.wf (m : Memory) : Bool :=
  Memory.wfFrom 0 m

/-! ### Registers: the one writer of each -/

/-- R7. -/
def State.setPc (s : State) (v : Addr) : State := { s with pc := v }

/-- R8. -/
def State.setSp (s : State) (v : Byte) : State := { s with sp := v }

/-- R9. -/
def State.setA (s : State) (v : Byte) : State := { s with a := v }

/-- R10; used by the host only (R83). -/
def State.setX (s : State) (v : Byte) : State := { s with x := v }

/-- R10; used by the host only (R83). -/
def State.setY (s : State) (v : Byte) : State := { s with y := v }

/-- R14. -/
def State.setStatus (s : State) (v : Status) : State := { s with status := v }

/-- R45: an `Execute` call sets the budget. -/
def State.setCycles (s : State) (budget : Int) : State := { s with cycles := budget }

/-- R13: `cycles <- cycles - n`, with no lower bound. -/
def State.charge (s : State) (n : Nat) : State := s.setCycles (s.cycles - n)

/-! ### Memory as the Processor reaches it -/

/-- R20, `MemRead(addr, 1)`: no state changes and no cycle is charged. Every address is valid (R21). -/
def State.readByte (s : State) (addr : Addr) : Byte :=
  s.mem.read addr.toNat

/-- R22, `MemWrite(addr, 1, v)`: no cycle is charged. -/
def State.writeByte (s : State) (addr : Addr) (v : Byte) : State :=
  { s with mem := s.mem.write addr.toNat v }

/-- R23, `WriteWord`: two byte writes, the low byte first, each charged 1. The second address wraps modulo 2^16 (the
spec's decision D9, log entry 10). -/
def State.writeWord (s : State) (addr : Addr) (v : Addr) : State :=
  let s₁ := (s.writeByte addr (lowByte v)).charge 1
  (s₁.writeByte (addr + 1) (highByte v)).charge 1

/-- R24, `FetchByte`: the byte at PC, and the state with PC one further and 1 charged. -/
def State.fetchByte (s : State) : Byte × State :=
  (s.readByte s.pc, (s.setPc (s.pc + 1)).charge 1)

/-- R25, the Processor's `ReadByte`: the byte at an address already computed, and the state with 1 charged. -/
def State.readByteC (s : State) (addr : Addr) : Byte × State :=
  (s.readByte addr, s.charge 1)

/-- R26, `FetchWord`: two bytes at PC, low byte first, and the state with PC two further and 2 charged. -/
def State.fetchWord (s : State) : Addr × State :=
  let lo := s.readByte s.pc
  let s₁ := s.setPc (s.pc + 1)
  let hi := s₁.readByte s₁.pc
  let s₂ := s₁.setPc (s₁.pc + 1)
  (wordOfBytes hi lo, s₂.charge 2)

/-- The effect on the state of fetching the `n` bytes of an instruction (R24, R26): PC moves by one and 1 is charged
for each. -/
def State.consume (s : State) (n : Nat) : State :=
  (s.setPc (s.pc + BitVec.ofNat 16 n)).charge n

/-- R38, R39: the bytes the decoder may need, from the opcode address up, addresses modulo 2^16: as many as the
longest instruction has. Reading has no effect (R20, R30), so the bytes past a shorter instruction are not fetched by
being listed here (log entry 7). -/
def State.fetchWindow (s : State) : List Byte :=
  [s.readByte s.pc, s.readByte (s.pc + 1), s.readByte (s.pc + 2)]

/-- Bytes laid at increasing addresses, modulo 2^16, with no cycle charged: how a program is loaded (R37). -/
def State.writeBytes (s : State) (addr : Addr) : List Byte → State
  | [] => s
  | b :: bs => State.writeBytes (s.writeByte addr b) (addr + 1) bs

/-! ### The fault, and Reset -/

/-- R64, `raise UnhandledOpcode(op, p)`: the status records the opcode byte and the address it was fetched from. -/
def State.raiseUnhandledOpcode (s : State) (op : Byte) (addr : Addr) : State :=
  s.setStatus (.faulted op addr)

/-- R64, from the instruction boundary: the opcode fetch (PC one further, 1 charged), then the raise with
`p = (PC - 1) mod 2^16`. Nothing else changes (R66). -/
def takeUnhandledOpcode (s : State) : State :=
  let fetched := s.fetchByte
  fetched.2.raiseUnhandledOpcode fetched.1 (fetched.2.pc - 1)

/-- R78, `Reset(memory)`, from any state; it also clears a fault (R79), from which there is no other return (R67).
`cycles` is set to what `State.reset` holds (log entry 4). The machine's `params` are no state of R6 and stay. -/
def resetFrom (s : State) : State :=
  { s with
    pc := 0xFFFC#16
    sp := 0x00#8
    a := 0x00#8
    x := 0x00#8
    y := 0x00#8
    flagC := false
    flagZ := false
    flagI := false
    flagD := false
    flagB := false
    flagV := false
    flagN := false
    status := .running
    mem := []
    cycles := 0 }

end Sys2Proof.Machine
end

