-- ==== Sys2Proof/Machine/Call.lean ====
section
/-! DEFINITION. The subroutine call (spec/42_subroutine_call.md R57 to R59). -/

namespace Sys2Proof.Machine

/-- R59 after the operand fetch, with PC at the byte after the instruction: push the return address, move SP by
the machine's `jsr_sp_delta` (R58), go to the target, and charge the internal cycle. No flag is written (the spec's decision D10). -/
def State.call (s : State) (target : Addr) : State :=
  let pushed := s.writeWord (stackAddr s.sp) (returnAddr s.pc)
  ((pushed.setSp (s.sp + s.params.jsrSpDelta)).setPc target).charge 1

/-- R59, JSR abs16: 6 cycles (the spec's decision D18, log entry 13). -/
def execJsrAbs (target : Addr) (s : State) : Host.Outcome State Fault Refusal :=
  .next ((s.consume 3).call target)

end Sys2Proof.Machine
end

