-- ==== Sys2Proof/Machine/Flags.lean ====
section
/-! DEFINITION. The flag computation (spec/40_execute_loop.md R50), and the flags by name for the host (R83). -/

namespace Sys2Proof.Machine

/-- R50: "Zero flag := (register value == 0)". -/
def zeroOf (v : Byte) : Bool :=
  v == 0x00#8

/-- R50: "Negative flag := the high bit (bit 7) of the register value is set". -/
def negativeOf (v : Byte) : Bool :=
  v.getLsbD 7

/-- R50, `SetZN(v)`: both are always rewritten, and no other flag. -/
def State.setZN (s : State) (v : Byte) : State :=
  { s with flagZ := zeroOf v, flagN := negativeOf v }

/-- The seven flags of R11 by name. -/
inductive FlagName where
  | c
  | z
  | i
  | d
  | b
  | v
  | n
  deriving DecidableEq, Repr

/-- R11: one flag. -/
def State.flag (s : State) (f : FlagName) : Bool :=
  match f with
  | .c => s.flagC
  | .z => s.flagZ
  | .i => s.flagI
  | .d => s.flagD
  | .b => s.flagB
  | .v => s.flagV
  | .n => s.flagN

/-- R11: the flags are independent, "writing one never changes another". -/
def State.setFlag (s : State) (f : FlagName) (bit : Bool) : State :=
  match f with
  | .c => { s with flagC := bit }
  | .z => { s with flagZ := bit }
  | .i => { s with flagI := bit }
  | .d => { s with flagD := bit }
  | .b => { s with flagB := bit }
  | .v => { s with flagV := bit }
  | .n => { s with flagN := bit }

end Sys2Proof.Machine
end

