-- ==== Sys2Proof/Machine/Load.lean ====
section
/-! DEFINITION. The three loads of A (spec/41_load_accumulator.md R54 to R56). A meaning runs from the instruction
boundary, with PC at the opcode byte: it covers the instruction's own fetches and their cycles. -/

namespace Sys2Proof.Machine

/-- The end of every load: `A <- v`, then `SetZN(A)`. -/
def State.loadA (s : State) (v : Byte) : State :=
  (s.setA v).setZN v

/-- R54, LDA #imm8: 2 cycles. -/
def execLdaImm (imm : Byte) (s : State) : Host.Outcome State Fault Refusal :=
  .next ((s.consume 2).loadA imm)

/-- R55, LDA zp8: 3 cycles. -/
def execLdaZp (zp : Byte) (s : State) : Host.Outcome State Fault Refusal :=
  let loaded := (s.consume 2).readByteC (zeroPageAddr zp)
  .next (loaded.2.loadA loaded.1)

/-- R56, LDA zp8,X: 4 cycles, the index addition being "itself a timed step". -/
def execLdaZpX (zp : Byte) (s : State) : Host.Outcome State Fault Refusal :=
  let loaded := ((s.consume 2).charge 1).readByteC (zeroPageXAddr zp s.x)
  .next (loaded.2.loadA loaded.1)

end Sys2Proof.Machine
end

