-- ==== Sys2Proof/Machine/Step.lean ====
section
/-! DEFINITION. One pass through the instruction boundary (spec/40_execute_loop.md R45, R46, R68). -/

namespace Sys2Proof.Machine

/-- The loop test of R45 and, where it lets an instruction run, `Step` of R46. The status is tested before the budget,
and the budget before the opcode fetch (R51, R68).
- Faulted: the machine has halted; the step stops with the fault record (R53, R65, R67; DESIGN CHOICE, safe, log entry 6).
- Running with `cycles <= 0`: no instruction executes and the state stays (R49, R75; DESIGN CHOICE, safe, log entry 5).
- Otherwise the opcode at PC selects one meaning, or the unhandled-opcode fault is taken (R46, R64). -/
def step (s : State) : Host.Outcome State Fault Refusal :=
  match s.status with
  | .faulted op addr => .fault (.unhandledOpcode op addr)
  | .running =>
    if s.cycles ≤ 0 then .next s
    else
      match decode s.fetchWindow with
      | .ok (i, _) => exec i s
      | .error _ => .next (takeUnhandledOpcode s)

/-- What the host does so that the next step runs a given instruction (R81, R83): its bytes stored at PC, and an
`Execute` call open with a budget that lets one instruction run, the budget left as it is if it already does
(log entry 11). -/
def State.withFetchWord (s : State) (nbits w : Nat) : State :=
  ((s.writeBytes s.pc (tableWordBytes nbits w)).setStatus .running).setCycles (max s.cycles 1)

end Sys2Proof.Machine
end

