-- ==== Sys2Proof/Machine/Execute.lean ====
section
/-! DEFINITION. `Execute(budget, memory)`: the loop over `step`, and what it returns (spec/40_execute_loop.md R45, R48
to R53; spec/60_exceptions.md R61). -/

namespace Sys2Proof.Machine

/-- R61: the stop reasons of `Execute`. -/
inductive StopReason where
  /-- "not an error; it is the normal termination condition of Execute". -/
  | budgetExhausted
  /-- The synchronous fault. -/
  | unhandledOpcode
  deriving DecidableEq, Repr

/-- R61: the spec's numbering (decision D26), for reporting only. -/
def StopReason.code : StopReason → Nat
  | .budgetExhausted => 0
  | .unhandledOpcode => 1

/-- R45: the loop goes on while `status = Running and cycles > 0`. -/
def State.canStep (s : State) : Bool :=
  decide (s.status = .running) && decide (0 < s.cycles)

/-- The loop of R45, at most `fuel` times around. -/
def executeLoop : Nat → State → State
  | 0, s => s
  | fuel + 1, s =>
    if s.canStep then
      match step s with
      | .next t => executeLoop fuel t
      | .fault _ => s
      | .refused _ => s
    else s

/-- R51: `UnhandledOpcode` when the status is Faulted, else `BudgetExhausted`. -/
def State.stopReason (s : State) : StopReason :=
  match s.status with
  | .running => .budgetExhausted
  | .faulted _ _ => .unhandledOpcode

/-- R51: what the caller of `Execute` has afterwards: the state it left (which is the caller's own memory, R36, and the
Processor's registers, R52), the final `cycles`, and the stop reason. -/
structure ExecuteResult where
  state : State
  cycles : Int
  reason : StopReason
  deriving DecidableEq, Repr

/-- R45. An instruction costs at least one cycle (R85), so a budget of `b` lets at most `b` of them run: the fuel never
ends the loop (DEDUCED, safe, log entry 16). -/
def execute (budget : Int) (s : State) : ExecuteResult :=
  let final := executeLoop budget.toNat (s.setCycles budget)
  { state := final, cycles := final.cycles, reason := final.stopReason }

end Sys2Proof.Machine
end

