-- ==== Sys2Proof/Machine/HostOps.lean ====
section
/-! DEFINITION. The host's operations, each performed outside any `Execute` call (spec/70_reset_and_hazards.md R83;
log entry 12). No step reads or performs them: they say what happens between runs. -/

namespace Sys2Proof.Machine

/-- The 8-bit registers of R8 to R10 by name. -/
inductive RegisterName where
  | a
  | x
  | y
  | sp
  deriving DecidableEq, Repr

/-- A host write of an 8-bit register: "that register or flag only" (R83). -/
def State.setRegister (s : State) (r : RegisterName) (v : Byte) : State :=
  match r with
  | .a => s.setA v
  | .x => s.setX v
  | .y => s.setY v
  | .sp => s.setSp v

/-- The rows of the table of R83 that act on a machine. The row "construct" leaves every component unspecified until
Reset (R17): it is any `State` at all. -/
inductive HostOp where
  /-- `Reset(memory)`. -/
  | reset
  /-- Load one byte (R37). -/
  | load (addr : Addr) (byte : Byte)
  /-- Set an 8-bit register. -/
  | setRegister (r : RegisterName) (v : Byte)
  /-- Set the PC. -/
  | setPc (v : Addr)
  /-- Set one flag. -/
  | setFlag (f : FlagName) (bit : Bool)
  /-- `Execute(budget, memory)`. -/
  | execute (budget : Int)
  /-- Look at registers, flags, status and memory. -/
  | inspect
  deriving DecidableEq, Repr

/-- R83, column "what changes". -/
def applyHostOp : HostOp → State → State
  | .reset, s => resetFrom s
  | .load addr byte, s => s.writeByte addr byte
  | .setRegister r v, s => s.setRegister r v
  | .setPc v, s => s.setPc v
  | .setFlag f bit, s => s.setFlag f bit
  | .execute budget, s => (execute budget s).state
  | .inspect, s => s

end Sys2Proof.Machine
end

