-- ==== Sys2Proof/Machine/Pseudocode.lean ====
section
/-! DEFINITION. A REFERENCE beside the model: the spec's own pseudocode of `Step` and of the handlers, line for line, with
operands fetched one after another as it writes them (spec/40_execute_loop.md R46; R54, R55, R56, R59, R64). `step` does
not use it; a statement says that the two agree. -/

namespace Sys2Proof.Machine

/-- R54 `LDA_imm()`. -/
def pseudoLdaImm (s : State) : State :=
  let (v, s) := s.fetchByte
  let s := s.setA v
  s.setZN s.a

/-- R55 `LDA_zp()`. -/
def pseudoLdaZp (s : State) : State :=
  let (zp, s) := s.fetchByte
  let ea := 0x0000#16 + zext16 zp
  let (v, s) := s.readByteC ea
  let s := s.setA v
  s.setZN s.a

/-- R56 `LDA_zpx()`. -/
def pseudoLdaZpX (s : State) : State :=
  let (zp, s) := s.fetchByte
  let ea := 0x0000#16 + zext16 (zp + s.x)
  let s := s.charge 1
  let (v, s) := s.readByteC ea
  let s := s.setA v
  s.setZN s.a

/-- R59 `JSR_abs()`. -/
def pseudoJsrAbs (s : State) : State :=
  let (t, s) := s.fetchWord
  let ret := s.pc - 1
  let s := s.writeWord (stackAddr s.sp) ret
  let s := s.setSp (s.sp + s.params.jsrSpDelta)
  let s := s.setPc t
  s.charge 1

/-- R46 `Step()`: one opcode fetch, then one arm. -/
def pseudoStep (s : State) : State :=
  let (op, s) := s.fetchByte
  if op = opcodeOf .ldaImm then pseudoLdaImm s
  else if op = opcodeOf .ldaZp then pseudoLdaZp s
  else if op = opcodeOf .ldaZpX then pseudoLdaZpX s
  else if op = opcodeOf .jsrAbs then pseudoJsrAbs s
  else s.raiseUnhandledOpcode op (s.pc - 1)

end Sys2Proof.Machine
end

