-- ==== Sys2Proof/Safety.lean ====
section
/-! DEFINITION. What counts as a safe run, and the invariant of the machine, in the terms statements use. -/

namespace Sys2Proof.Machine

/-- After a load exactly one of "zero" and "negative" can hold: "Z=1 and N=1 together is impossible" (R50). -/
def State.flagsConsistent (s : State) : Bool :=
  !(s.flagZ && s.flagN)

/-- The fault record is true of the state (R64 to R66): the recorded byte is no opcode, it is the byte at the recorded
address, and PC is one further. -/
def State.faultRecordTrue (s : State) : Prop :=
  ∀ op addr, s.status = .faulted op addr →
    decodeOpcode op = none ∧ s.readByte addr = op ∧ s.pc = addr + 1

/-- What reset establishes and every step keeps. -/
structure State.Inv (s : State) : Prop where
  /-- Memory is in its canonical form, inside the 65536 cells of R18. -/
  memWf : s.mem.wf = true
  /-- R50. -/
  flags : s.flagsConsistent = true
  /-- R64 to R66. -/
  record : s.faultRecordTrue

/-- A state in which no unhandled opcode has been met. -/
def State.Safe (s : State) : Prop :=
  s.status = .running

/-- The next `n` steps meet no unhandled opcode: none of them stops, and each leaves a safe state. -/
def SafeRun : Nat → State → Prop
  | 0, s => s.Safe
  | n + 1, s => s.Safe ∧ ∃ t, step s = .next t ∧ SafeRun n t

/-- The state that differs from `s` in Y and in the flags C, I, D, B and V at most: what no instruction reads or
writes (R10, R12). -/
def State.withInert (s : State) (y : Byte) (c i d b v : Bool) : State :=
  { s with y := y, flagC := c, flagI := i, flagD := d, flagB := b, flagV := v }

/-- Two states that agree on what an instruction reads (R9, R10, R12): all but A, Y and the flags. -/
def State.SameInputs (s t : State) : Prop :=
  s.mem = t.mem ∧ s.pc = t.pc ∧ s.sp = t.sp ∧ s.x = t.x ∧ s.cycles = t.cycles ∧ s.status = t.status ∧
    s.params = t.params

end Sys2Proof.Machine
end

