-- ==== Sys2Proof/Certificates/Slice0/Obligations.lean ====
section
/-! DEFINITION. The statements for the provers, from the numbered rules of spec/. Where one rests on a decision of the spec
(D<n>) or on the model's own choice (a log entry), its docstring says so. Opcode bytes are the spec's decision D1. -/

open Sys2Proof Sys2Proof.Machine

/-! ### Encoding -/

/-- R39, R40: words written out from the opcode map (bytes of decision D1, log entry 1). -/
def Obligations.EncodingWordsDecode : Prop :=
  decode [0xA9#8, 0x80#8] = .ok (.ldaImm 0x80#8, []) ∧
  decode [0xA5#8, 0x42#8] = .ok (.ldaZp 0x42#8, []) ∧
  decode [0xB5#8, 0xFE#8] = .ok (.ldaZpX 0xFE#8, []) ∧
  decode [0x20#8, 0x34#8, 0x12#8] = .ok (.jsrAbs 0x1234#16, [])

/-- R38 to R41: every instruction, with every operand, is read back from its bytes, and only its own bytes are used. -/
def Obligations.DecodeEncodeRoundTrip : Prop :=
  ∀ (i : Instr) (rest : List Byte), decode (encode i ++ rest) = .ok (i, rest)

/-- R38 to R41, the other direction: bytes that decode are the encoding of what they decode to. -/
def Obligations.DecodedBytesAreTheEncoding : Prop :=
  ∀ (bs : List Byte) (i : Instr) (rest : List Byte), decode bs = .ok (i, rest) → bs = encode i ++ rest

/-- R42 (with the bytes of D1): a first byte is refused as unhandled exactly when it is none of the four. -/
def Obligations.UnhandledBytesAreTheOthers : Prop :=
  ∀ (op : Byte) (rest : List Byte),
    decode (op :: rest) = .error (.unhandledOpcode op) ↔
      op ≠ 0xA9#8 ∧ op ≠ 0xA5#8 ∧ op ≠ 0xB5#8 ∧ op ≠ 0x20#8

/-- R41, row by row: each operand is assembled from its bytes as the table says, and the two effective addresses and
the target have the values it gives. -/
def Obligations.OperandAssembly : Prop :=
  ∀ (op b lo hi x : Byte) (rest : List Byte) (s : State),
    (decodeOpcode op = some .ldaImm → decode (op :: b :: rest) = .ok (.ldaImm b, rest)) ∧
    (∃ t, exec (.ldaImm b) s = .next t ∧ t.a = b) ∧
    (decodeOpcode op = some .ldaZp → decode (op :: b :: rest) = .ok (.ldaZp b, rest)) ∧
    (zeroPageAddr b).toNat = b.toNat ∧
    (∃ t, exec (.ldaZp b) s = .next t ∧ t.a = s.readByte (zeroPageAddr b)) ∧
    (decodeOpcode op = some .ldaZpX → decode (op :: b :: rest) = .ok (.ldaZpX b, rest)) ∧
    (zeroPageXAddr b x).toNat = (b.toNat + x.toNat) % 256 ∧
    (∃ t, exec (.ldaZpX b) s = .next t ∧ t.a = s.readByte (zeroPageXAddr b s.x)) ∧
    (decodeOpcode op = some .jsrAbs →
      decode (op :: lo :: hi :: rest) = .ok (.jsrAbs (wordOfBytes hi lo), rest)) ∧
    (wordOfBytes hi lo).toNat = hi.toNat * 256 + lo.toNat

/-! ### The step -/

/-- R46: inside an `Execute` call with budget left, bytes at PC that are an instruction's encoding run it. The step
adds nothing around `exec`: an instruction's meaning includes its own fetches and their cycles. -/
def Obligations.StepRunsDecodedInstruction : Prop :=
  ∀ (s : State) (i : Instr), s.status = .running → 0 < s.cycles →
    (∀ (k : Nat) (h : k < (encode i).length), s.readByte (s.pc + BitVec.ofNat 16 k) = (encode i)[k]) →
    step s = exec i s

/-- A table word placed by `withFetchWord` (log entry 11) is what the next step runs. -/
def Obligations.PlacedWordRunsNext : Prop :=
  ∀ (s : State) (nbits w : Nat) (i : Instr), decodeTableWord nbits w = some i →
    step (s.withFetchWord nbits w) = exec i (s.withFetchWord nbits w)

/-- R64, R66 (bytes of D1; the record is D7 and D8): the fault is taken with one opcode fetch and nothing else. -/
def Obligations.UnhandledOpcodeEntry : Prop :=
  ∀ s : State, s.status = .running → 0 < s.cycles →
    s.readByte s.pc ≠ 0xA9#8 → s.readByte s.pc ≠ 0xA5#8 → s.readByte s.pc ≠ 0xB5#8 → s.readByte s.pc ≠ 0x20#8 →
    step s = .next
      { s with pc := s.pc + 1, cycles := s.cycles - 1, status := .faulted (s.readByte s.pc) s.pc }

/-- R49, R68, R75: with the budget exhausted nothing is fetched, whatever stands at PC. That a step then answers the
same state is the model's choice (log entry 5). -/
def Obligations.ExhaustedBudgetFetchesNothing : Prop :=
  ∀ s : State, s.status = .running → s.cycles ≤ 0 → step s = .next s

/-- R65, R67: a faulted machine has halted, whatever its budget; the stop carries the fault record. That a step then
answers a fault is the model's choice (log entry 6). -/
def Obligations.FaultedMachineHalts : Prop :=
  ∀ (s : State) (op : Byte) (addr : Addr), s.status = .faulted op addr →
    step s = .fault (.unhandledOpcode op addr)

/-- A step goes on exactly in a running machine, and none is refused. That memory raises no fault and no other fault
exists is R21, R62, R67; that a step without budget answers a next state is the model's choice (log entry 5), and that
taking the fault goes on while a step of the faulted machine stops is too (log entry 6). -/
def Obligations.StepGoesOnExactlyWhenRunning : Prop :=
  ∀ s : State, ((∃ t, step s = .next t) ↔ s.status = .running) ∧ ∀ r, step s ≠ .refused r

/-- R46, R54 to R56, R59, R64: a step is the spec's own `Step` pseudocode, which fetches the opcode and then the operands
one after another. -/
def Obligations.StepIsTheSpecPseudocode : Prop :=
  ∀ s : State, s.status = .running → 0 < s.cycles → step s = .next (pseudoStep s)

/-! ### The instructions -/

/-- R21, R62: every instruction runs in every state, and raises no fault of its own. -/
def Obligations.EveryInstructionCompletes : Prop :=
  ∀ (i : Instr) (s : State), ∃ t, exec i s = .next t ∧ t.status = s.status

/-- R54, from PC at the opcode byte: the whole next state. -/
def Obligations.LdaImmResult : Prop :=
  ∀ (imm : Byte) (s : State), exec (.ldaImm imm) s = .next
    { s with
      a := imm
      flagZ := imm == 0x00#8
      flagN := imm.getLsbD 7
      pc := s.pc + 2
      cycles := s.cycles - 2 }

/-- R55: the whole next state, A taken from the zero-page address. -/
def Obligations.LdaZpResult : Prop :=
  ∀ (zp : Byte) (s : State), exec (.ldaZp zp) s = .next
    { s with
      a := s.readByte (zp.setWidth 16)
      flagZ := s.readByte (zp.setWidth 16) == 0x00#8
      flagN := (s.readByte (zp.setWidth 16)).getLsbD 7
      pc := s.pc + 2
      cycles := s.cycles - 3 }

/-- R56: the whole next state, the indexed address wrapping in 8 bits; X is read and not written. -/
def Obligations.LdaZpXResult : Prop :=
  ∀ (zp : Byte) (s : State), exec (.ldaZpX zp) s = .next
    { s with
      a := s.readByte ((zp + s.x).setWidth 16)
      flagZ := s.readByte ((zp + s.x).setWidth 16) == 0x00#8
      flagN := (s.readByte ((zp + s.x).setWidth 16)).getLsbD 7
      pc := s.pc + 2
      cycles := s.cycles - 4 }

/-- R57 to R59 (decisions D3, D4, D9, D10, D18), for every value of the argument `jsr_sp_delta`, and for its default 2: the whole next
state. -/
def Obligations.JsrResult : Prop :=
  ∀ (target : Addr) (s : State), ∃ t, exec (.jsrAbs target) s = .next t ∧
    t.pc = target ∧ t.sp = s.sp + s.params.jsrSpDelta ∧
    (s.params = defaultParams → t.sp = s.sp + 2) ∧ t.params = s.params ∧ t.cycles = s.cycles - 6 ∧
    t.readByte (0x0100#16 + s.sp.setWidth 16) = lowByte (s.pc + 2) ∧
    t.readByte (0x0101#16 + s.sp.setWidth 16) = highByte (s.pc + 2) ∧
    (∀ addr, addr ≠ 0x0100#16 + s.sp.setWidth 16 → addr ≠ 0x0101#16 + s.sp.setWidth 16 →
      t.readByte addr = s.readByte addr) ∧
    t.a = s.a ∧ t.x = s.x ∧ t.y = s.y ∧ t.flagC = s.flagC ∧ t.flagZ = s.flagZ ∧ t.flagI = s.flagI ∧
    t.flagD = s.flagD ∧ t.flagB = s.flagB ∧ t.flagV = s.flagV ∧ t.flagN = s.flagN ∧ t.status = s.status

/-- R54 from memory (opcode byte of D1): the operand is the byte after the opcode, modulo 2^16. -/
def Obligations.LdaImmAtPc : Prop :=
  ∀ s : State, s.status = .running → 0 < s.cycles → s.readByte s.pc = 0xA9#8 →
    step s = .next
      { s with
        a := s.readByte (s.pc + 1)
        flagZ := s.readByte (s.pc + 1) == 0x00#8
        flagN := (s.readByte (s.pc + 1)).getLsbD 7
        pc := s.pc + 2
        cycles := s.cycles - 2 }

/-- R55 from memory (opcode byte of D1). -/
def Obligations.LdaZpAtPc : Prop :=
  ∀ (s : State) (v : Byte), s.status = .running → 0 < s.cycles → s.readByte s.pc = 0xA5#8 →
    v = s.readByte ((s.readByte (s.pc + 1)).setWidth 16) →
    step s = .next
      { s with
        a := v
        flagZ := v == 0x00#8
        flagN := v.getLsbD 7
        pc := s.pc + 2
        cycles := s.cycles - 3 }

/-- R56 from memory (opcode byte of D1). -/
def Obligations.LdaZpXAtPc : Prop :=
  ∀ (s : State) (v : Byte), s.status = .running → 0 < s.cycles → s.readByte s.pc = 0xB5#8 →
    v = s.readByte ((s.readByte (s.pc + 1) + s.x).setWidth 16) →
    step s = .next
      { s with
        a := v
        flagZ := v == 0x00#8
        flagN := v.getLsbD 7
        pc := s.pc + 2
        cycles := s.cycles - 4 }

/-- R59 from memory (opcode byte of D1; decisions D3, D4, D9, D10, D18): the target is read low byte first, and the
word pushed at `StackAddr(SP)` is the address of the instruction's last byte. -/
def Obligations.JsrAtPc : Prop :=
  ∀ s : State, s.status = .running → 0 < s.cycles → s.readByte s.pc = 0x20#8 →
    step s = .next
      { s with
        mem := (s.mem.write (stackAddr s.sp).toNat (lowByte (s.pc + 2))).write
          (stackAddr s.sp + 1).toNat (highByte (s.pc + 2))
        sp := s.sp + s.params.jsrSpDelta
        pc := wordOfBytes (s.readByte (s.pc + 2)) (s.readByte (s.pc + 1))
        cycles := s.cycles - 6 }

/-- R54 to R56: what the three loads leave unchanged. Their destinations are A, the flags Z and N, and the PC; they
store nothing, so every byte of memory reads as before. -/
def Obligations.LoadFrame : Prop :=
  ∀ (i : Instr) (s t : State) (operand : Byte),
    i = .ldaImm operand ∨ i = .ldaZp operand ∨ i = .ldaZpX operand → exec i s = .next t →
      (∀ addr, t.readByte addr = s.readByte addr) ∧ t.sp = s.sp ∧ t.x = s.x ∧ t.y = s.y ∧
      t.flagC = s.flagC ∧ t.flagI = s.flagI ∧ t.flagD = s.flagD ∧ t.flagB = s.flagB ∧ t.flagV = s.flagV ∧
      t.status = s.status ∧ t.params = s.params

/-- R59: what JSR leaves unchanged. It writes SP, the PC, and the two bytes from `StackAddr(SP)` up, the address
computed by the function the meaning uses. -/
def Obligations.JsrFrame : Prop :=
  ∀ (target : Addr) (s t : State), exec (.jsrAbs target) s = .next t →
    (∀ base, base = stackAddr s.sp → ∀ addr, addr ≠ base → addr ≠ base + 1 → t.readByte addr = s.readByte addr) ∧
    t.a = s.a ∧ t.x = s.x ∧ t.y = s.y ∧ t.flagC = s.flagC ∧ t.flagZ = s.flagZ ∧ t.flagI = s.flagI ∧
    t.flagD = s.flagD ∧ t.flagB = s.flagB ∧ t.flagV = s.flagV ∧ t.flagN = s.flagN ∧ t.status = s.status ∧
    t.params = s.params

/-- R85: the cost of each instruction, and of an unhandled opcode. -/
def Obligations.InstructionCosts : Prop :=
  ∀ s : State,
    (∀ imm, ∃ t, exec (.ldaImm imm) s = .next t ∧ t.cycles = s.cycles - 2) ∧
    (∀ zp, ∃ t, exec (.ldaZp zp) s = .next t ∧ t.cycles = s.cycles - 3) ∧
    (∀ zp, ∃ t, exec (.ldaZpX zp) s = .next t ∧ t.cycles = s.cycles - 4) ∧
    (∀ target, ∃ t, exec (.jsrAbs target) s = .next t ∧ t.cycles = s.cycles - 6) ∧
    (takeUnhandledOpcode s).cycles = s.cycles - 1

/-- R4, R58 (decision D4): JSR adds the machine's own `jsr_sp_delta` to SP, whatever its value, and a machine with another
value differs after the JSR in SP and in nothing else. -/
def Obligations.StackDeltaMovesOnlySp : Prop :=
  ∀ (q : Params) (target : Addr) (s : State), ∃ t, exec (.jsrAbs target) s = .next t ∧
    t.sp = s.sp + s.params.jsrSpDelta ∧
    exec (.jsrAbs target) { s with params := q } = .next { t with params := q, sp := s.sp + q.jsrSpDelta }

/-- R4 ("fixed values"; the field is the model's, log entry 20): no step and no host operation changes the machine's
arguments. -/
def Obligations.ParametersNeverChange : Prop :=
  (∀ s t : State, step s = .next t → t.params = s.params) ∧
  ∀ (op : HostOp) (s : State), (applyHostOp op s).params = s.params

/-- R34, R28 (decision D27): bytes JSR pushes are what the next fetches read, in the order they lie: where it jumps to
its own push, the window at the new PC begins with the return address, low byte first. -/
def Obligations.JsrPushIsFetched : Prop :=
  ∀ s : State, ∃ t, exec (.jsrAbs (stackAddr s.sp)) s = .next t ∧
    t.fetchByte.1 = lowByte (s.pc + 2) ∧ t.fetchByte.2.fetchByte.1 = highByte (s.pc + 2) ∧
    t.fetchWord.1 = s.pc + 2

/-! ### The shared operations -/

/-- R50, whole: both flags from the value, no other component, never both set, and every load leaves them as its
loaded value says. -/
def Obligations.ZeroNegativeDerivation : Prop :=
  (∀ (s : State) (v : Byte),
    ((s.setZN v).flagZ = true ↔ v.toNat = 0) ∧ ((s.setZN v).flagN = true ↔ 128 ≤ v.toNat) ∧
    ¬((s.setZN v).flagZ = true ∧ (s.setZN v).flagN = true) ∧
    s.setZN v = { s with flagZ := (s.setZN v).flagZ, flagN := (s.setZN v).flagN }) ∧
  (∀ (i : Instr) (s : State) (operand : Byte),
    i = .ldaImm operand ∨ i = .ldaZp operand ∨ i = .ldaZpX operand →
      ∃ (u : State) (v : Byte), exec i s = .next ((u.setA v).setZN (u.setA v).a))

/-- R22: a byte write, the host's load, changes the one cell and nothing else, charges nothing, and is what a word
write is built of. No instruction writes a byte otherwise: JSR's memory is that of its one word write at
`StackAddr(SP)` (its place is decision D3, log entry 3), and a load's is as it was. -/
def Obligations.WriteByteChangesOneCell : Prop :=
  ∀ (s : State) (addr : Addr) (v : Byte),
    (s.writeByte addr v).readByte addr = v ∧
    (∀ other, other ≠ addr → (s.writeByte addr v).readByte other = s.readByte other) ∧
    s.writeByte addr v = { s with mem := (s.writeByte addr v).mem } ∧
    (s.writeByte addr v).cycles = s.cycles ∧
    applyHostOp (.load addr v) s = s.writeByte addr v ∧
    (∀ w, (s.writeWord addr w).mem =
      ((s.writeByte addr (lowByte w)).writeByte (addr + 1) (highByte w)).mem) ∧
    (∀ target, ∃ t, exec (.jsrAbs target) s = .next t ∧
      t.mem = (s.writeWord (stackAddr s.sp) (s.pc + 2)).mem) ∧
    ∀ (i : Instr) (operand : Byte), i = .ldaImm operand ∨ i = .ldaZp operand ∨ i = .ldaZpX operand →
      ∃ t, exec i s = .next t ∧ t.mem = s.mem

/-- R23 (second address modulo 2^16: decision D9): the two bytes, every other byte, 2 cycles, and no other
component. -/
def Obligations.WriteWordLittleEndian : Prop :=
  ∀ (s : State) (addr w : Addr),
    (s.writeWord addr w).readByte addr = lowByte w ∧
    (s.writeWord addr w).readByte (addr + 1) = highByte w ∧
    (∀ other, other ≠ addr → other ≠ addr + 1 → (s.writeWord addr w).readByte other = s.readByte other) ∧
    s.writeWord addr w = { s with mem := (s.writeWord addr w).mem, cycles := s.cycles - 2 }

/-- R24: the byte at PC, PC one further modulo 2^16, 1 cycle, and no other component. -/
def Obligations.FetchByteAdvances : Prop :=
  ∀ s : State, s.fetchByte = (s.readByte s.pc, { s with pc := s.pc + 1, cycles := s.cycles - 1 }) ∧
    (s.pc + 1).toNat = (s.pc.toNat + 1) % 2 ^ 16

/-- R25: the byte at the address, 1 cycle, and no other component, the PC among them. -/
def Obligations.ReadByteLeavesPc : Prop :=
  ∀ (s : State) (addr : Addr), s.readByteC addr = (s.readByte addr, { s with cycles := s.cycles - 1 })

/-- R26 (wrap at 0xFFFF: decision D9): two bytes, low byte first, PC two further, 2 cycles. -/
def Obligations.FetchWordLittleEndian : Prop :=
  ∀ s : State,
    s.fetchWord.1.toNat = (s.readByte (s.pc + 1)).toNat * 256 + (s.readByte s.pc).toNat ∧
    s.fetchWord.2 = { s with pc := s.pc + 2, cycles := s.cycles - 2 }

/-- R83, R11 (decision D12): a host write of a flag changes that flag only. -/
def Obligations.FlagsAreIndependent : Prop :=
  ∀ (s : State) (f g : FlagName) (bit : Bool),
    (s.setFlag f bit).flag g = (if g = f then bit else s.flag g) ∧
    applyHostOp (.setFlag f bit) s =
      { s with
        flagC := (s.setFlag f bit).flagC, flagZ := (s.setFlag f bit).flagZ, flagI := (s.setFlag f bit).flagI
        flagD := (s.setFlag f bit).flagD, flagB := (s.setFlag f bit).flagB, flagV := (s.setFlag f bit).flagV
        flagN := (s.setFlag f bit).flagN }

/-! ### Reset -/

/-- R17, R78 to R80 (SP: decision D2; status: D8; `cycles` = 0: the model's choice, log entry 4): Reset from any state
gives the one state after reset, with every register, flag and byte at its value; the machine's argument
`jsr_sp_delta` (R4, R58) is no state and stays, and is 2 by default. -/
def Obligations.ResetValues : Prop :=
  ∀ s : State, resetFrom s = { State.reset with params := s.params } ∧
    State.reset.params = { jsrSpDelta := 2#8 } ∧ resetFrom (resetFrom s) = resetFrom s ∧
    State.reset.pc = 0xFFFC#16 ∧ State.reset.sp = 0#8 ∧ State.reset.a = 0#8 ∧ State.reset.x = 0#8 ∧
    State.reset.y = 0#8 ∧ (∀ f, State.reset.flag f = false) ∧ State.reset.status = .running ∧
    State.reset.cycles = 0 ∧ ∀ addr, State.reset.readByte addr = 0#8

/-- R76: after Reset and whatever the host loads, the first instruction is the one whose bytes begin at 0xFFFC itself;
they are not read as a pointer. -/
def Obligations.FirstInstructionIsAtFFFC : Prop :=
  ∀ (before : State) (loaded : Memory) (budget : Int) (s : State) (i : Instr),
    s = { resetFrom before with mem := loaded, cycles := budget } → 0 < budget →
    (∀ (k : Nat) (h : k < (encode i).length), s.readByte (0xFFFC#16 + BitVec.ofNat 16 k) = (encode i)[k]) →
    s.pc = 0xFFFC#16 ∧ step s = exec i s

/-! ### Invariants -/

/-- The invariant holds after reset. -/
def Obligations.ResetMeetsInvariant : Prop :=
  State.reset.Inv

/-- Every step keeps the invariant: canonical memory inside the 65536 cells (R18), Z and N never both set (R50), and a
fault record that is true of the state (R64 to R66). -/
def Obligations.StepKeepsInvariant : Prop :=
  ∀ s t : State, s.Inv → step s = .next t → t.Inv

/-- A whole `Execute` call keeps it, from a running machine or from a faulted one. -/
def Obligations.ExecuteKeepsInvariant : Prop :=
  ∀ (s : State) (budget : Int), s.Inv → (execute budget s).state.Inv

/-- Every host operation of R83 keeps memory canonical. -/
def Obligations.HostOpsKeepMemoryCanonical : Prop :=
  ∀ (op : HostOp) (s : State), s.mem.wf = true → (applyHostOp op s).mem.wf = true

/-! ### Rules about the whole machine -/

/-- R10, R12: no step writes X, Y, C, I, D, B or V. -/
def Obligations.NoStepWritesIndexesOrInertFlags : Prop :=
  ∀ s t : State, step s = .next t →
    t.x = s.x ∧ t.y = s.y ∧ t.flagC = s.flagC ∧ t.flagI = s.flagI ∧ t.flagD = s.flagD ∧ t.flagB = s.flagB ∧
    t.flagV = s.flagV

/-- R10, R12, R63 (decisions D14, D15): Y and the flags C, I, D, B and V have no effect: a step from a state that
differs in them alone ends the same way and differs in them alone. The flag I masks nothing. -/
def Obligations.InertStateHasNoEffect : Prop :=
  ∀ (s : State) (y : Byte) (c i d b v : Bool),
    step (s.withInert y c i d b v) =
      match step s with
      | .next t => .next (t.withInert y c i d b v)
      | .fault r => .fault r
      | .refused r => .refused r

/-- R9, R10, R12: no step reads A, Y or a flag. States that agree on memory, PC, SP, X, `cycles`, status and arguments
step to states that agree on them, and the step either gives both the same A, Z and N, or leaves each its own. -/
def Obligations.StepReadsNoFlagOrAccumulator : Prop :=
  ∀ s t s' : State, s.SameInputs t → step s = .next s' → ∃ t', step t = .next t' ∧ s'.SameInputs t' ∧
    ((s'.a = t'.a ∧ s'.flagZ = t'.flagZ ∧ s'.flagN = t'.flagN) ∨
      (s'.a = s.a ∧ s'.flagZ = s.flagZ ∧ s'.flagN = s.flagN ∧
        t'.a = t.a ∧ t'.flagZ = t.flagZ ∧ t'.flagN = t.flagN))

/-- R28, R34, R54 to R56, R59 (opcode byte of D1; stack address D3): a byte of memory changes only by a JSR, and only
at the two bytes from `StackAddr(SP)` up. -/
def Obligations.OnlyJsrWritesMemory : Prop :=
  ∀ (s t : State) (addr : Addr), step s = .next t → t.readByte addr ≠ s.readByte addr →
    s.status = .running ∧ 0 < s.cycles ∧ s.readByte s.pc = 0x20#8 ∧
      (addr = stackAddr s.sp ∨ addr = stackAddr s.sp + 1)

/-- R13: a step never raises `cycles`, and one that runs an instruction or takes the fault lowers it. -/
def Obligations.CyclesOnlyFall : Prop :=
  ∀ s t : State, step s = .next t → t.cycles ≤ s.cycles ∧ (0 < s.cycles → t.cycles < s.cycles)

/-- R14, R64 (bytes of D1; record D7, D8): the status changes only by an unhandled opcode, to the record of it. -/
def Obligations.StatusChangesOnlyByUnhandledOpcode : Prop :=
  ∀ s t : State, step s = .next t → t.status ≠ s.status →
    s.status = .running ∧ 0 < s.cycles ∧ s.readByte s.pc ∉ [0xA9#8, 0xA5#8, 0xB5#8, 0x20#8] ∧
      t.status = .faulted (s.readByte s.pc) s.pc

/-- R14, R67, R79 (decision D8): of the host's operations only Reset clears a fault. -/
def Obligations.FaultLastsUntilReset : Prop :=
  ∀ (op : HostOp) (s : State), s.status ≠ .running →
    (op ≠ .reset → (applyHostOp op s).status = s.status) ∧ (op = .reset → (applyHostOp op s).status = .running)

/-- A safe run of `n` steps is a run of the host's interface that ends in a running machine. -/
def Obligations.SafeRunsEndRunning : Prop :=
  ∀ (n : Nat) (s : State),
    SafeRun n s ↔ ∃ t : State, Host.Core.run core n s = .next t ∧ t.status = .running

/-! ### Execute -/

/-- R49: with a budget of 0 or less no instruction executes, every register, flag and memory byte keeps its value, and
the budget comes back. That the state left holds the budget in `cycles` is the model's (log entries 4 and 16). -/
def Obligations.NonpositiveBudgetRunsNothing : Prop :=
  ∀ (s : State) (budget : Int), budget ≤ 0 →
    (execute budget s).state = { s with cycles := budget } ∧ (execute budget s).cycles = budget

/-- R53 (decision D8): on a faulted machine nothing executes, every register, flag and memory byte and the status keep
their values, and the budget comes back with the reason. That the state left holds the budget in `cycles` is the
model's (log entries 4 and 16). -/
def Obligations.ExecuteOnFaultedDoesNothing : Prop :=
  ∀ (s : State) (op : Byte) (addr : Addr) (budget : Int), s.status = .faulted op addr →
    execute budget s = { state := { s with cycles := budget }, cycles := budget, reason := .unhandledOpcode }

/-- R45, R52: one turn of the loop: the rest of the call is the call on what the first step leaves, with the budget it
leaves. -/
def Obligations.ExecuteTakesOneStepAndGoesOn : Prop :=
  ∀ (s t : State) (budget : Int), s.status = .running → 0 < budget →
    step { s with cycles := budget } = .next t → execute budget s = execute t.cycles t

/-- R45, R51, R61: `Execute` ends for the spec's reasons alone, never for want of fuel: more fuel changes nothing, the
loop test fails at its end, and the reason says which part of it failed. -/
def Obligations.ExecuteEndsByItsLoopTest : Prop :=
  ∀ (s : State) (budget : Int) (fuel : Nat), budget.toNat ≤ fuel →
    executeLoop fuel { s with cycles := budget } = (execute budget s).state ∧
    (execute budget s).cycles = (execute budget s).state.cycles ∧
    (((execute budget s).reason = .budgetExhausted ∧ (execute budget s).state.status = .running ∧
        (execute budget s).cycles ≤ 0) ∨
      ((execute budget s).reason = .unhandledOpcode ∧
        ∃ op addr, (execute budget s).state.status = .faulted op addr))

/-- R48 (JSR's 6 cycles: decision D18): the last instruction may overrun the budget, by 5 at most; a running machine
with budget spends at least one cycle. -/
def Obligations.OverrunIsAtMostFive : Prop :=
  ∀ (s : State) (budget : Int), s.status = .running → 0 < budget →
    -5 ≤ (execute budget s).cycles ∧ (execute budget s).cycles < budget

/-- R52, R48 (decision D17): two calls are one: a second call with a budget of at least what the first left goes on
as if the first had been given what both spend. -/
def Obligations.TwoCallsAreOne : Prop :=
  ∀ (s : State) (first second : Int), 0 ≤ second → (execute first s).cycles ≤ second →
    execute second (execute first s).state = execute (first + (second - (execute first s).cycles)) s
end

