-- ==== Sys2Proof/Laws/Decode.lean ====
section
/-! SUPPORT. Small laws of the opcode map, of the byte order and of the decoder. -/

namespace Sys2Proof

/-- The bits of `hi : lo`. -/
theorem getLsbD_wordOfBytes (hi lo : Byte) (i : Nat) :
    (wordOfBytes hi lo).getLsbD i = if i < 8 then lo.getLsbD i else hi.getLsbD (i - 8) := by
  show (hi ++ lo).getLsbD i = _
  rw [BitVec.getLsbD_append]

/-- R28: the low byte of `hi : lo`. -/
theorem lowByte_wordOfBytes (hi lo : Byte) : lowByte (wordOfBytes hi lo) = lo := by
  refine BitVec.eq_of_getLsbD_eq fun i h => ?_
  rw [lowByte, BitVec.getLsbD_extractLsb', getLsbD_wordOfBytes, Nat.zero_add, if_pos h, decide_eq_true h,
    Bool.true_and]

/-- R28: the high byte of `hi : lo`. -/
theorem highByte_wordOfBytes (hi lo : Byte) : highByte (wordOfBytes hi lo) = hi := by
  refine BitVec.eq_of_getLsbD_eq fun i h => ?_
  rw [highByte, BitVec.getLsbD_extractLsb', getLsbD_wordOfBytes, if_neg (by omega), Nat.add_sub_cancel_left,
    decide_eq_true h, Bool.true_and]

/-- The two bytes of a word make it up again. -/
theorem wordOfBytes_high_low (w : Addr) : wordOfBytes (highByte w) (lowByte w) = w := by
  refine BitVec.eq_of_getLsbD_eq fun i h => ?_
  rw [getLsbD_wordOfBytes]
  split
  next hi => rw [lowByte, BitVec.getLsbD_extractLsb', Nat.zero_add, decide_eq_true hi, Bool.true_and]
  next hi =>
    rw [highByte, BitVec.getLsbD_extractLsb', decide_eq_true (by omega), Bool.true_and,
      show 8 + (i - 8) = i by omega]

/-- Each row's opcode byte selects that row. -/
theorem decodeOpcode_opcodeOf (m : Mnemonic) : decodeOpcode (opcodeOf m) = some m := by
  cases m <;> rfl

/-- R38, R40: the byte that selects a row is that row's opcode byte. -/
theorem decodeOpcode_eq_some {op : Byte} {m : Mnemonic} : decodeOpcode op = some m ↔ op = opcodeOf m := by
  constructor
  · intro h
    unfold decodeOpcode at h
    cases hf : opcodeTable.find? (fun r => r.opcode == op) with
    | none => simp [hf] at h
    | some r =>
      have hop : r.opcode = op := by simpa using List.find?_some hf
      have hmem : r ∈ opcodeTable := List.mem_of_find?_eq_some hf
      simp only [opcodeTable, List.mem_map] at hmem
      obtain ⟨m', -, rfl⟩ := hmem
      have hm : m' = m := by simpa [hf] using h
      rw [← hop, hm]
  · rintro rfl
    exact decodeOpcode_opcodeOf m

/-- R42: a byte selects no row exactly when it is none of the four opcode bytes. -/
theorem decodeOpcode_eq_none {op : Byte} : decodeOpcode op = none ↔ ∀ m, op ≠ opcodeOf m := by
  constructor
  · rintro h m rfl
    rw [decodeOpcode_opcodeOf] at h
    exact absurd h (Option.some_ne_none m)
  · intro h
    cases hd : decodeOpcode op with
    | none => rfl
    | some m => exact absurd (decodeOpcode_eq_some.mp hd) (h m)

/-- R42: a list that begins with an unhandled byte is refused by that byte's name. -/
theorem decode_unhandled {op : Byte} (h : decodeOpcode op = none) (rest : List Byte) :
    decode (op :: rest) = .error (.unhandledOpcode op) := by
  simp only [decode, h]

/-- A list of three bytes or more is never cut short: it decodes, or its first byte is unhandled. -/
theorem decode_cases (b₀ b₁ b₂ : Byte) (rest : List Byte) :
    (∃ i more, decode (b₀ :: b₁ :: b₂ :: rest) = .ok (i, more) ∧ decodeOpcode b₀ = some i.mnemonic ∧
      b₀ :: b₁ :: b₂ :: rest = encode i ++ more) ∨
    (decodeOpcode b₀ = none ∧ decode (b₀ :: b₁ :: b₂ :: rest) = .error (.unhandledOpcode b₀)) := by
  cases hd : decodeOpcode b₀ with
  | none => exact .inr ⟨rfl, decode_unhandled hd _⟩
  | some m =>
    have hop := decodeOpcode_eq_some.mp hd
    left
    cases m with
    | ldaImm => exact ⟨.ldaImm b₁, b₂ :: rest, by simp only [decode, hd], rfl, by rw [hop]; rfl⟩
    | ldaZp => exact ⟨.ldaZp b₁, b₂ :: rest, by simp only [decode, hd], rfl, by rw [hop]; rfl⟩
    | ldaZpX => exact ⟨.ldaZpX b₁, b₂ :: rest, by simp only [decode, hd], rfl, by rw [hop]; rfl⟩
    | jsrAbs =>
      refine ⟨.jsrAbs (wordOfBytes b₂ b₁), rest, by simp only [decode, hd], rfl, ?_⟩
      rw [hop, encode, encodeOperands, lowByte_wordOfBytes, highByte_wordOfBytes]
      rfl

end Sys2Proof
end

