-- ==== Sys2Proof/Laws/Memory.lean ====
section
/-! SUPPORT. The laws of the store: what a read gives after a write, that every operation keeps the canonical form, and
that two canonical memories which read alike are equal. -/

namespace Sys2Proof.Machine

theorem Memory.read_cons (k : Nat) (v : Byte) (m : Memory) (key : Nat) :
    Memory.read ((k, v) :: m) key = if k = key then v else Memory.read m key := rfl

theorem Memory.erase_cons (k : Nat) (v : Byte) (m : Memory) (key : Nat) :
    Memory.erase ((k, v) :: m) key = if k = key then Memory.erase m key else (k, v) :: Memory.erase m key := rfl

theorem Memory.insert_cons (k : Nat) (v : Byte) (m : Memory) (key : Nat) (byte : Byte) :
    Memory.insert ((k, v) :: m) key byte =
      if key < k then (key, byte) :: (k, v) :: m else (k, v) :: Memory.insert m key byte := rfl

theorem Memory.read_erase_same (m : Memory) (key : Nat) : (m.erase key).read key = Memory.unlisted := by
  induction m with
  | nil => rfl
  | cons c m ih =>
    rw [Memory.erase_cons]
    split
    · exact ih
    · rw [Memory.read_cons, if_neg (by assumption)]
      exact ih

theorem Memory.read_erase_other (m : Memory) {key other : Nat} (h : other ≠ key) :
    (m.erase key).read other = m.read other := by
  induction m with
  | nil => rfl
  | cons c m ih =>
    rw [Memory.erase_cons, Memory.read_cons]
    split
    next hk => rw [ih, if_neg (by omega)]
    next => rw [Memory.read_cons, ih]

/-- The entry that is put in is the one that is read, where the address was not listed before. -/
theorem Memory.read_insert_erase_same (m : Memory) (key : Nat) (byte : Byte) :
    ((m.erase key).insert key byte).read key = byte := by
  induction m with
  | nil => exact if_pos rfl
  | cons c m ih =>
    rw [Memory.erase_cons]
    split
    · exact ih
    next hk =>
      rw [Memory.insert_cons]
      split
      · exact if_pos rfl
      · rw [Memory.read_cons, if_neg hk]
        exact ih

theorem Memory.read_insert_other (m : Memory) {key other : Nat} (byte : Byte) (h : other ≠ key) :
    (m.insert key byte).read other = m.read other := by
  induction m with
  | nil => exact if_neg (by omega)
  | cons c m ih =>
    rw [Memory.insert_cons]
    split
    · rw [Memory.read_cons, if_neg (by omega)]
    · rw [Memory.read_cons, Memory.read_cons, ih]

/-- R22: a read after a write to the same address gives the value written. -/
theorem Memory.read_write_same (m : Memory) (key : Nat) (byte : Byte) : (m.write key byte).read key = byte := by
  unfold Memory.write
  split
  next h => rw [Memory.read_erase_same, h]
  next => exact Memory.read_insert_erase_same m key byte

/-- R22: "no other cell changes". -/
theorem Memory.read_write_other (m : Memory) {key other : Nat} (byte : Byte) (h : other ≠ key) :
    (m.write key byte).read other = m.read other := by
  unfold Memory.write
  split
  · exact Memory.read_erase_other m h
  · rw [Memory.read_insert_other _ _ h, Memory.read_erase_other m h]

/-- Both cases in one. -/
theorem Memory.read_write (m : Memory) (key other : Nat) (byte : Byte) :
    (m.write key byte).read other = if other = key then byte else m.read other := by
  split
  next h => rw [h, Memory.read_write_same]
  next h => exact Memory.read_write_other m byte h

/-! ### The canonical form -/

theorem Memory.wfFrom_cons (low k : Nat) (v : Byte) (m : Memory) :
    Memory.wfFrom low ((k, v) :: m) = true ↔
      low ≤ k ∧ k < memorySize ∧ v ≠ Memory.unlisted ∧ Memory.wfFrom (k + 1) m = true := by
  simp only [Memory.wfFrom, Bool.and_eq_true, decide_eq_true_eq, and_assoc]

theorem Memory.wfFrom_mono {low low' : Nat} (h : low' ≤ low) {m : Memory} (hm : Memory.wfFrom low m = true) :
    Memory.wfFrom low' m = true := by
  cases m with
  | nil => rfl
  | cons c m =>
    rw [Memory.wfFrom_cons] at hm ⊢
    exact ⟨h.trans hm.1, hm.2⟩

theorem Memory.wfFrom_erase {low : Nat} {m : Memory} (key : Nat) (hm : Memory.wfFrom low m = true) :
    Memory.wfFrom low (m.erase key) = true := by
  induction m generalizing low with
  | nil => rfl
  | cons c m ih =>
    obtain ⟨hlow, hk, hv, htail⟩ := (Memory.wfFrom_cons low c.1 c.2 m).mp hm
    rw [Memory.erase_cons]
    split
    · exact ih (Memory.wfFrom_mono (by omega) htail)
    · exact (Memory.wfFrom_cons low c.1 c.2 _).mpr ⟨hlow, hk, hv, ih htail⟩

theorem Memory.wfFrom_insert_erase {low key : Nat} {m : Memory} {byte : Byte} (hm : Memory.wfFrom low m = true)
    (hlow : low ≤ key) (hkey : key < memorySize) (hbyte : byte ≠ Memory.unlisted) :
    Memory.wfFrom low ((m.erase key).insert key byte) = true := by
  induction m generalizing low with
  | nil => exact (Memory.wfFrom_cons low key byte []).mpr ⟨hlow, hkey, hbyte, rfl⟩
  | cons c m ih =>
    obtain ⟨hc, hk, hv, htail⟩ := (Memory.wfFrom_cons low c.1 c.2 m).mp hm
    rw [Memory.erase_cons]
    split
    next hkc => exact ih (Memory.wfFrom_mono (by omega) htail) hlow
    next hkc =>
      rw [Memory.insert_cons]
      split
      next hlt =>
        refine (Memory.wfFrom_cons low key byte _).mpr ⟨hlow, hkey, hbyte, ?_⟩
        exact (Memory.wfFrom_cons _ c.1 c.2 _).mpr ⟨by omega, hk, hv, Memory.wfFrom_erase key htail⟩
      next hge =>
        exact (Memory.wfFrom_cons low c.1 c.2 _).mpr ⟨hc, hk, hv, ih htail (by omega)⟩

/-- A write inside the store keeps the canonical form. -/
theorem Memory.wf_write {m : Memory} (hm : m.wf = true) {key : Nat} (hkey : key < memorySize) (byte : Byte) :
    (m.write key byte).wf = true := by
  unfold Memory.write
  split
  · exact Memory.wfFrom_erase key hm
  next h => exact Memory.wfFrom_insert_erase hm (Nat.zero_le key) hkey h

/-- The empty store is canonical. -/
theorem Memory.wf_nil : Memory.wf [] = true := rfl

/-- A canonical memory from `low` up reads as unlisted below `low`. -/
theorem Memory.read_below {low key : Nat} {m : Memory} (hm : Memory.wfFrom low m = true) (h : key < low) :
    m.read key = Memory.unlisted := by
  induction m generalizing low with
  | nil => rfl
  | cons c m ih =>
    obtain ⟨hc, -, -, htail⟩ := (Memory.wfFrom_cons low c.1 c.2 m).mp hm
    rw [Memory.read_cons, if_neg (by omega)]
    exact ih htail (by omega)

theorem Memory.wfFrom_ext {low low' : Nat} {m m' : Memory} (hm : Memory.wfFrom low m = true)
    (hm' : Memory.wfFrom low' m' = true) (h : ∀ key, m.read key = m'.read key) : m = m' := by
  induction m generalizing low low' m' with
  | nil =>
    cases m' with
    | nil => rfl
    | cons c' m' =>
      obtain ⟨-, -, hv', -⟩ := (Memory.wfFrom_cons low' c'.1 c'.2 m').mp hm'
      have := h c'.1
      rw [Memory.read_cons, if_pos rfl] at this
      exact absurd this.symm hv'
  | cons c m ih =>
    obtain ⟨-, -, hv, htail⟩ := (Memory.wfFrom_cons low c.1 c.2 m).mp hm
    cases m' with
    | nil =>
      have := h c.1
      rw [Memory.read_cons, if_pos rfl] at this
      exact absurd this hv
    | cons c' m' =>
      obtain ⟨-, -, hv', htail'⟩ := (Memory.wfFrom_cons low' c'.1 c'.2 m').mp hm'
      have hfirst := h c.1
      have hfirst' := h c'.1
      rw [Memory.read_cons, if_pos rfl, Memory.read_cons] at hfirst
      rw [Memory.read_cons, Memory.read_cons, if_pos rfl] at hfirst'
      have hkey : c.1 = c'.1 := by
        by_contra hne
        rw [if_neg (Ne.symm hne)] at hfirst
        rw [if_neg hne] at hfirst'
        rcases Nat.lt_or_gt_of_ne hne with hlt | hgt
        · exact hv (hfirst.trans (Memory.read_below htail' (by omega)))
        · exact hv' (hfirst'.symm.trans (Memory.read_below htail (by omega)))
      have hval : c.2 = c'.2 := by rw [if_pos hkey.symm] at hfirst; exact hfirst
      have hrest : m = m' := by
        refine ih htail htail' fun key => ?_
        have hread := h key
        rw [Memory.read_cons, Memory.read_cons, hkey] at hread
        by_cases hk : c'.1 = key
        · rw [Memory.read_below htail (by omega), Memory.read_below htail' (by omega)]
        · rwa [if_neg hk, if_neg hk] at hread
      rw [hrest, show c = c' from Prod.ext hkey hval]

/-- Equal memories are equal data. -/
theorem Memory.wf_ext {m m' : Memory} (hm : m.wf = true) (hm' : m'.wf = true)
    (h : ∀ key, m.read key = m'.read key) : m = m' :=
  Memory.wfFrom_ext hm hm' h

end Sys2Proof.Machine
end

