-- ==== Sys2Proof/Laws/State.lean ====
section
/-! SUPPORT. One lemma per field per update of State, each true by rfl: no later proof unfolds a record update. -/

namespace Sys2Proof.Machine

variable (s : State)

/-! ### setPc -/

@[simp] theorem State.setPc_mem (v : Addr) : (s.setPc v).mem = s.mem := rfl
@[simp] theorem State.setPc_pc (v : Addr) : (s.setPc v).pc = v := rfl
@[simp] theorem State.setPc_sp (v : Addr) : (s.setPc v).sp = s.sp := rfl
@[simp] theorem State.setPc_a (v : Addr) : (s.setPc v).a = s.a := rfl
@[simp] theorem State.setPc_x (v : Addr) : (s.setPc v).x = s.x := rfl
@[simp] theorem State.setPc_y (v : Addr) : (s.setPc v).y = s.y := rfl
@[simp] theorem State.setPc_flagC (v : Addr) : (s.setPc v).flagC = s.flagC := rfl
@[simp] theorem State.setPc_flagZ (v : Addr) : (s.setPc v).flagZ = s.flagZ := rfl
@[simp] theorem State.setPc_flagI (v : Addr) : (s.setPc v).flagI = s.flagI := rfl
@[simp] theorem State.setPc_flagD (v : Addr) : (s.setPc v).flagD = s.flagD := rfl
@[simp] theorem State.setPc_flagB (v : Addr) : (s.setPc v).flagB = s.flagB := rfl
@[simp] theorem State.setPc_flagV (v : Addr) : (s.setPc v).flagV = s.flagV := rfl
@[simp] theorem State.setPc_flagN (v : Addr) : (s.setPc v).flagN = s.flagN := rfl
@[simp] theorem State.setPc_cycles (v : Addr) : (s.setPc v).cycles = s.cycles := rfl
@[simp] theorem State.setPc_status (v : Addr) : (s.setPc v).status = s.status := rfl
@[simp] theorem State.setPc_params (v : Addr) : (s.setPc v).params = s.params := rfl

/-! ### setSp -/

@[simp] theorem State.setSp_mem (v : Byte) : (s.setSp v).mem = s.mem := rfl
@[simp] theorem State.setSp_pc (v : Byte) : (s.setSp v).pc = s.pc := rfl
@[simp] theorem State.setSp_sp (v : Byte) : (s.setSp v).sp = v := rfl
@[simp] theorem State.setSp_a (v : Byte) : (s.setSp v).a = s.a := rfl
@[simp] theorem State.setSp_x (v : Byte) : (s.setSp v).x = s.x := rfl
@[simp] theorem State.setSp_y (v : Byte) : (s.setSp v).y = s.y := rfl
@[simp] theorem State.setSp_flagC (v : Byte) : (s.setSp v).flagC = s.flagC := rfl
@[simp] theorem State.setSp_flagZ (v : Byte) : (s.setSp v).flagZ = s.flagZ := rfl
@[simp] theorem State.setSp_flagI (v : Byte) : (s.setSp v).flagI = s.flagI := rfl
@[simp] theorem State.setSp_flagD (v : Byte) : (s.setSp v).flagD = s.flagD := rfl
@[simp] theorem State.setSp_flagB (v : Byte) : (s.setSp v).flagB = s.flagB := rfl
@[simp] theorem State.setSp_flagV (v : Byte) : (s.setSp v).flagV = s.flagV := rfl
@[simp] theorem State.setSp_flagN (v : Byte) : (s.setSp v).flagN = s.flagN := rfl
@[simp] theorem State.setSp_cycles (v : Byte) : (s.setSp v).cycles = s.cycles := rfl
@[simp] theorem State.setSp_status (v : Byte) : (s.setSp v).status = s.status := rfl
@[simp] theorem State.setSp_params (v : Byte) : (s.setSp v).params = s.params := rfl

/-! ### setA -/

@[simp] theorem State.setA_mem (v : Byte) : (s.setA v).mem = s.mem := rfl
@[simp] theorem State.setA_pc (v : Byte) : (s.setA v).pc = s.pc := rfl
@[simp] theorem State.setA_sp (v : Byte) : (s.setA v).sp = s.sp := rfl
@[simp] theorem State.setA_a (v : Byte) : (s.setA v).a = v := rfl
@[simp] theorem State.setA_x (v : Byte) : (s.setA v).x = s.x := rfl
@[simp] theorem State.setA_y (v : Byte) : (s.setA v).y = s.y := rfl
@[simp] theorem State.setA_flagC (v : Byte) : (s.setA v).flagC = s.flagC := rfl
@[simp] theorem State.setA_flagZ (v : Byte) : (s.setA v).flagZ = s.flagZ := rfl
@[simp] theorem State.setA_flagI (v : Byte) : (s.setA v).flagI = s.flagI := rfl
@[simp] theorem State.setA_flagD (v : Byte) : (s.setA v).flagD = s.flagD := rfl
@[simp] theorem State.setA_flagB (v : Byte) : (s.setA v).flagB = s.flagB := rfl
@[simp] theorem State.setA_flagV (v : Byte) : (s.setA v).flagV = s.flagV := rfl
@[simp] theorem State.setA_flagN (v : Byte) : (s.setA v).flagN = s.flagN := rfl
@[simp] theorem State.setA_cycles (v : Byte) : (s.setA v).cycles = s.cycles := rfl
@[simp] theorem State.setA_status (v : Byte) : (s.setA v).status = s.status := rfl
@[simp] theorem State.setA_params (v : Byte) : (s.setA v).params = s.params := rfl

/-! ### setX -/

@[simp] theorem State.setX_mem (v : Byte) : (s.setX v).mem = s.mem := rfl
@[simp] theorem State.setX_pc (v : Byte) : (s.setX v).pc = s.pc := rfl
@[simp] theorem State.setX_sp (v : Byte) : (s.setX v).sp = s.sp := rfl
@[simp] theorem State.setX_a (v : Byte) : (s.setX v).a = s.a := rfl
@[simp] theorem State.setX_x (v : Byte) : (s.setX v).x = v := rfl
@[simp] theorem State.setX_y (v : Byte) : (s.setX v).y = s.y := rfl
@[simp] theorem State.setX_flagC (v : Byte) : (s.setX v).flagC = s.flagC := rfl
@[simp] theorem State.setX_flagZ (v : Byte) : (s.setX v).flagZ = s.flagZ := rfl
@[simp] theorem State.setX_flagI (v : Byte) : (s.setX v).flagI = s.flagI := rfl
@[simp] theorem State.setX_flagD (v : Byte) : (s.setX v).flagD = s.flagD := rfl
@[simp] theorem State.setX_flagB (v : Byte) : (s.setX v).flagB = s.flagB := rfl
@[simp] theorem State.setX_flagV (v : Byte) : (s.setX v).flagV = s.flagV := rfl
@[simp] theorem State.setX_flagN (v : Byte) : (s.setX v).flagN = s.flagN := rfl
@[simp] theorem State.setX_cycles (v : Byte) : (s.setX v).cycles = s.cycles := rfl
@[simp] theorem State.setX_status (v : Byte) : (s.setX v).status = s.status := rfl
@[simp] theorem State.setX_params (v : Byte) : (s.setX v).params = s.params := rfl

/-! ### setY -/

@[simp] theorem State.setY_mem (v : Byte) : (s.setY v).mem = s.mem := rfl
@[simp] theorem State.setY_pc (v : Byte) : (s.setY v).pc = s.pc := rfl
@[simp] theorem State.setY_sp (v : Byte) : (s.setY v).sp = s.sp := rfl
@[simp] theorem State.setY_a (v : Byte) : (s.setY v).a = s.a := rfl
@[simp] theorem State.setY_x (v : Byte) : (s.setY v).x = s.x := rfl
@[simp] theorem State.setY_y (v : Byte) : (s.setY v).y = v := rfl
@[simp] theorem State.setY_flagC (v : Byte) : (s.setY v).flagC = s.flagC := rfl
@[simp] theorem State.setY_flagZ (v : Byte) : (s.setY v).flagZ = s.flagZ := rfl
@[simp] theorem State.setY_flagI (v : Byte) : (s.setY v).flagI = s.flagI := rfl
@[simp] theorem State.setY_flagD (v : Byte) : (s.setY v).flagD = s.flagD := rfl
@[simp] theorem State.setY_flagB (v : Byte) : (s.setY v).flagB = s.flagB := rfl
@[simp] theorem State.setY_flagV (v : Byte) : (s.setY v).flagV = s.flagV := rfl
@[simp] theorem State.setY_flagN (v : Byte) : (s.setY v).flagN = s.flagN := rfl
@[simp] theorem State.setY_cycles (v : Byte) : (s.setY v).cycles = s.cycles := rfl
@[simp] theorem State.setY_status (v : Byte) : (s.setY v).status = s.status := rfl
@[simp] theorem State.setY_params (v : Byte) : (s.setY v).params = s.params := rfl

/-! ### setStatus -/

@[simp] theorem State.setStatus_mem (v : Status) : (s.setStatus v).mem = s.mem := rfl
@[simp] theorem State.setStatus_pc (v : Status) : (s.setStatus v).pc = s.pc := rfl
@[simp] theorem State.setStatus_sp (v : Status) : (s.setStatus v).sp = s.sp := rfl
@[simp] theorem State.setStatus_a (v : Status) : (s.setStatus v).a = s.a := rfl
@[simp] theorem State.setStatus_x (v : Status) : (s.setStatus v).x = s.x := rfl
@[simp] theorem State.setStatus_y (v : Status) : (s.setStatus v).y = s.y := rfl
@[simp] theorem State.setStatus_flagC (v : Status) : (s.setStatus v).flagC = s.flagC := rfl
@[simp] theorem State.setStatus_flagZ (v : Status) : (s.setStatus v).flagZ = s.flagZ := rfl
@[simp] theorem State.setStatus_flagI (v : Status) : (s.setStatus v).flagI = s.flagI := rfl
@[simp] theorem State.setStatus_flagD (v : Status) : (s.setStatus v).flagD = s.flagD := rfl
@[simp] theorem State.setStatus_flagB (v : Status) : (s.setStatus v).flagB = s.flagB := rfl
@[simp] theorem State.setStatus_flagV (v : Status) : (s.setStatus v).flagV = s.flagV := rfl
@[simp] theorem State.setStatus_flagN (v : Status) : (s.setStatus v).flagN = s.flagN := rfl
@[simp] theorem State.setStatus_cycles (v : Status) : (s.setStatus v).cycles = s.cycles := rfl
@[simp] theorem State.setStatus_status (v : Status) : (s.setStatus v).status = v := rfl
@[simp] theorem State.setStatus_params (v : Status) : (s.setStatus v).params = s.params := rfl

/-! ### setCycles -/

@[simp] theorem State.setCycles_mem (c : Int) : (s.setCycles c).mem = s.mem := rfl
@[simp] theorem State.setCycles_pc (c : Int) : (s.setCycles c).pc = s.pc := rfl
@[simp] theorem State.setCycles_sp (c : Int) : (s.setCycles c).sp = s.sp := rfl
@[simp] theorem State.setCycles_a (c : Int) : (s.setCycles c).a = s.a := rfl
@[simp] theorem State.setCycles_x (c : Int) : (s.setCycles c).x = s.x := rfl
@[simp] theorem State.setCycles_y (c : Int) : (s.setCycles c).y = s.y := rfl
@[simp] theorem State.setCycles_flagC (c : Int) : (s.setCycles c).flagC = s.flagC := rfl
@[simp] theorem State.setCycles_flagZ (c : Int) : (s.setCycles c).flagZ = s.flagZ := rfl
@[simp] theorem State.setCycles_flagI (c : Int) : (s.setCycles c).flagI = s.flagI := rfl
@[simp] theorem State.setCycles_flagD (c : Int) : (s.setCycles c).flagD = s.flagD := rfl
@[simp] theorem State.setCycles_flagB (c : Int) : (s.setCycles c).flagB = s.flagB := rfl
@[simp] theorem State.setCycles_flagV (c : Int) : (s.setCycles c).flagV = s.flagV := rfl
@[simp] theorem State.setCycles_flagN (c : Int) : (s.setCycles c).flagN = s.flagN := rfl
@[simp] theorem State.setCycles_cycles (c : Int) : (s.setCycles c).cycles = c := rfl
@[simp] theorem State.setCycles_status (c : Int) : (s.setCycles c).status = s.status := rfl
@[simp] theorem State.setCycles_params (c : Int) : (s.setCycles c).params = s.params := rfl

/-! ### charge -/

@[simp] theorem State.charge_mem (n : Nat) : (s.charge n).mem = s.mem := rfl
@[simp] theorem State.charge_pc (n : Nat) : (s.charge n).pc = s.pc := rfl
@[simp] theorem State.charge_sp (n : Nat) : (s.charge n).sp = s.sp := rfl
@[simp] theorem State.charge_a (n : Nat) : (s.charge n).a = s.a := rfl
@[simp] theorem State.charge_x (n : Nat) : (s.charge n).x = s.x := rfl
@[simp] theorem State.charge_y (n : Nat) : (s.charge n).y = s.y := rfl
@[simp] theorem State.charge_flagC (n : Nat) : (s.charge n).flagC = s.flagC := rfl
@[simp] theorem State.charge_flagZ (n : Nat) : (s.charge n).flagZ = s.flagZ := rfl
@[simp] theorem State.charge_flagI (n : Nat) : (s.charge n).flagI = s.flagI := rfl
@[simp] theorem State.charge_flagD (n : Nat) : (s.charge n).flagD = s.flagD := rfl
@[simp] theorem State.charge_flagB (n : Nat) : (s.charge n).flagB = s.flagB := rfl
@[simp] theorem State.charge_flagV (n : Nat) : (s.charge n).flagV = s.flagV := rfl
@[simp] theorem State.charge_flagN (n : Nat) : (s.charge n).flagN = s.flagN := rfl
@[simp] theorem State.charge_cycles (n : Nat) : (s.charge n).cycles = s.cycles - n := rfl
@[simp] theorem State.charge_status (n : Nat) : (s.charge n).status = s.status := rfl
@[simp] theorem State.charge_params (n : Nat) : (s.charge n).params = s.params := rfl

/-! ### writeByte -/

@[simp] theorem State.writeByte_mem (addr : Addr) (v : Byte) : (s.writeByte addr v).mem = s.mem.write addr.toNat v := rfl
@[simp] theorem State.writeByte_pc (addr : Addr) (v : Byte) : (s.writeByte addr v).pc = s.pc := rfl
@[simp] theorem State.writeByte_sp (addr : Addr) (v : Byte) : (s.writeByte addr v).sp = s.sp := rfl
@[simp] theorem State.writeByte_a (addr : Addr) (v : Byte) : (s.writeByte addr v).a = s.a := rfl
@[simp] theorem State.writeByte_x (addr : Addr) (v : Byte) : (s.writeByte addr v).x = s.x := rfl
@[simp] theorem State.writeByte_y (addr : Addr) (v : Byte) : (s.writeByte addr v).y = s.y := rfl
@[simp] theorem State.writeByte_flagC (addr : Addr) (v : Byte) : (s.writeByte addr v).flagC = s.flagC := rfl
@[simp] theorem State.writeByte_flagZ (addr : Addr) (v : Byte) : (s.writeByte addr v).flagZ = s.flagZ := rfl
@[simp] theorem State.writeByte_flagI (addr : Addr) (v : Byte) : (s.writeByte addr v).flagI = s.flagI := rfl
@[simp] theorem State.writeByte_flagD (addr : Addr) (v : Byte) : (s.writeByte addr v).flagD = s.flagD := rfl
@[simp] theorem State.writeByte_flagB (addr : Addr) (v : Byte) : (s.writeByte addr v).flagB = s.flagB := rfl
@[simp] theorem State.writeByte_flagV (addr : Addr) (v : Byte) : (s.writeByte addr v).flagV = s.flagV := rfl
@[simp] theorem State.writeByte_flagN (addr : Addr) (v : Byte) : (s.writeByte addr v).flagN = s.flagN := rfl
@[simp] theorem State.writeByte_cycles (addr : Addr) (v : Byte) : (s.writeByte addr v).cycles = s.cycles := rfl
@[simp] theorem State.writeByte_status (addr : Addr) (v : Byte) : (s.writeByte addr v).status = s.status := rfl
@[simp] theorem State.writeByte_params (addr : Addr) (v : Byte) : (s.writeByte addr v).params = s.params := rfl

/-! ### setZN -/

@[simp] theorem State.setZN_mem (v : Byte) : (s.setZN v).mem = s.mem := rfl
@[simp] theorem State.setZN_pc (v : Byte) : (s.setZN v).pc = s.pc := rfl
@[simp] theorem State.setZN_sp (v : Byte) : (s.setZN v).sp = s.sp := rfl
@[simp] theorem State.setZN_a (v : Byte) : (s.setZN v).a = s.a := rfl
@[simp] theorem State.setZN_x (v : Byte) : (s.setZN v).x = s.x := rfl
@[simp] theorem State.setZN_y (v : Byte) : (s.setZN v).y = s.y := rfl
@[simp] theorem State.setZN_flagC (v : Byte) : (s.setZN v).flagC = s.flagC := rfl
@[simp] theorem State.setZN_flagZ (v : Byte) : (s.setZN v).flagZ = zeroOf v := rfl
@[simp] theorem State.setZN_flagI (v : Byte) : (s.setZN v).flagI = s.flagI := rfl
@[simp] theorem State.setZN_flagD (v : Byte) : (s.setZN v).flagD = s.flagD := rfl
@[simp] theorem State.setZN_flagB (v : Byte) : (s.setZN v).flagB = s.flagB := rfl
@[simp] theorem State.setZN_flagV (v : Byte) : (s.setZN v).flagV = s.flagV := rfl
@[simp] theorem State.setZN_flagN (v : Byte) : (s.setZN v).flagN = negativeOf v := rfl
@[simp] theorem State.setZN_cycles (v : Byte) : (s.setZN v).cycles = s.cycles := rfl
@[simp] theorem State.setZN_status (v : Byte) : (s.setZN v).status = s.status := rfl
@[simp] theorem State.setZN_params (v : Byte) : (s.setZN v).params = s.params := rfl

/-! ### loadA -/

@[simp] theorem State.loadA_mem (v : Byte) : (s.loadA v).mem = s.mem := rfl
@[simp] theorem State.loadA_pc (v : Byte) : (s.loadA v).pc = s.pc := rfl
@[simp] theorem State.loadA_sp (v : Byte) : (s.loadA v).sp = s.sp := rfl
@[simp] theorem State.loadA_a (v : Byte) : (s.loadA v).a = v := rfl
@[simp] theorem State.loadA_x (v : Byte) : (s.loadA v).x = s.x := rfl
@[simp] theorem State.loadA_y (v : Byte) : (s.loadA v).y = s.y := rfl
@[simp] theorem State.loadA_flagC (v : Byte) : (s.loadA v).flagC = s.flagC := rfl
@[simp] theorem State.loadA_flagZ (v : Byte) : (s.loadA v).flagZ = zeroOf v := rfl
@[simp] theorem State.loadA_flagI (v : Byte) : (s.loadA v).flagI = s.flagI := rfl
@[simp] theorem State.loadA_flagD (v : Byte) : (s.loadA v).flagD = s.flagD := rfl
@[simp] theorem State.loadA_flagB (v : Byte) : (s.loadA v).flagB = s.flagB := rfl
@[simp] theorem State.loadA_flagV (v : Byte) : (s.loadA v).flagV = s.flagV := rfl
@[simp] theorem State.loadA_flagN (v : Byte) : (s.loadA v).flagN = negativeOf v := rfl
@[simp] theorem State.loadA_cycles (v : Byte) : (s.loadA v).cycles = s.cycles := rfl
@[simp] theorem State.loadA_status (v : Byte) : (s.loadA v).status = s.status := rfl
@[simp] theorem State.loadA_params (v : Byte) : (s.loadA v).params = s.params := rfl

/-! ### consume -/

@[simp] theorem State.consume_mem (n : Nat) : (s.consume n).mem = s.mem := rfl
@[simp] theorem State.consume_pc (n : Nat) : (s.consume n).pc = s.pc + BitVec.ofNat 16 n := rfl
@[simp] theorem State.consume_sp (n : Nat) : (s.consume n).sp = s.sp := rfl
@[simp] theorem State.consume_a (n : Nat) : (s.consume n).a = s.a := rfl
@[simp] theorem State.consume_x (n : Nat) : (s.consume n).x = s.x := rfl
@[simp] theorem State.consume_y (n : Nat) : (s.consume n).y = s.y := rfl
@[simp] theorem State.consume_flagC (n : Nat) : (s.consume n).flagC = s.flagC := rfl
@[simp] theorem State.consume_flagZ (n : Nat) : (s.consume n).flagZ = s.flagZ := rfl
@[simp] theorem State.consume_flagI (n : Nat) : (s.consume n).flagI = s.flagI := rfl
@[simp] theorem State.consume_flagD (n : Nat) : (s.consume n).flagD = s.flagD := rfl
@[simp] theorem State.consume_flagB (n : Nat) : (s.consume n).flagB = s.flagB := rfl
@[simp] theorem State.consume_flagV (n : Nat) : (s.consume n).flagV = s.flagV := rfl
@[simp] theorem State.consume_flagN (n : Nat) : (s.consume n).flagN = s.flagN := rfl
@[simp] theorem State.consume_cycles (n : Nat) : (s.consume n).cycles = s.cycles - n := rfl
@[simp] theorem State.consume_status (n : Nat) : (s.consume n).status = s.status := rfl
@[simp] theorem State.consume_params (n : Nat) : (s.consume n).params = s.params := rfl

end Sys2Proof.Machine
end

