-- ==== Sys2Proof/Laws/Ops.lean ====
section
/-! SUPPORT. For each shared operation, what it does, once: a caller cites these and does not unfold it. -/

namespace Sys2Proof.Machine

/-! ### One byte of memory -/

/-- R22: the byte written, and every other byte as it was. -/
theorem State.readByte_writeByte (s : State) (addr other : Addr) (v : Byte) :
    (s.writeByte addr v).readByte other = if other = addr then v else s.readByte other := by
  show (s.mem.write addr.toNat v).read other.toNat = _
  rw [Memory.read_write]
  exact if_congr BitVec.toNat_inj rfl rfl

/-- A read sees memory only. -/
theorem State.readByte_congr {s t : State} (h : t.mem = s.mem) (addr : Addr) : t.readByte addr = s.readByte addr := by
  unfold State.readByte
  rw [h]

/-- A byte write keeps the canonical form of memory. -/
theorem State.wf_writeByte {s : State} (h : s.mem.wf = true) (addr : Addr) (v : Byte) :
    (s.writeByte addr v).mem.wf = true :=
  Memory.wf_write h addr.isLt v

/-! ### The fetches -/

theorem State.fetchByte_eq (s : State) : s.fetchByte = (s.readByte s.pc, s.consume 1) := rfl

theorem State.readByteC_eq (s : State) (addr : Addr) : s.readByteC addr = (s.readByte addr, s.charge 1) := rfl

/-- Two increments of the PC are one of 2. -/
theorem addr_add_one_one (a : Addr) : a + 1 + 1 = a + 2 := by
  rw [BitVec.add_assoc]
  rfl

/-- R26. -/
theorem State.fetchWord_eq (s : State) :
    s.fetchWord = (wordOfBytes (s.readByte (s.pc + 1)) (s.readByte s.pc), s.consume 2) := by
  show (_, (s.setPc (s.pc + 1 + 1)).charge 2) = _
  rw [addr_add_one_one]
  rfl

/-! ### The word write -/

/-- Two different addresses. -/
theorem addr_ne_add_one (a : Addr) : a + 1 ≠ a := by
  intro h
  have htoNat : (a.toNat + 1) % 2 ^ 16 = a.toNat := congrArg BitVec.toNat h
  have ha := a.isLt
  omega

/-- R23, the bytes: high byte above the low byte, and nothing else. -/
theorem State.readByte_writeWord (s : State) (addr other : Addr) (v : Addr) :
    (s.writeWord addr v).readByte other =
      if other = addr + 1 then highByte v else if other = addr then lowByte v else s.readByte other := by
  show (((s.writeByte addr (lowByte v)).charge 1).writeByte (addr + 1) (highByte v)).readByte other = _
  rw [State.readByte_writeByte]
  congr 1
  exact State.readByte_writeByte s addr other (lowByte v)

theorem State.wf_writeWord {s : State} (h : s.mem.wf = true) (addr v : Addr) :
    (s.writeWord addr v).mem.wf = true :=
  State.wf_writeByte (s := (s.writeByte addr (lowByte v)).charge 1) (State.wf_writeByte h addr (lowByte v))
    (addr + 1) (highByte v)

/-- R23, the rest of the state: 2 cycles, and nothing else beside memory. -/
theorem State.writeWord_eq (s : State) (addr v : Addr) :
    s.writeWord addr v = { s with mem := (s.writeWord addr v).mem, cycles := s.cycles - 1 - 1 } := rfl

/-! ### Loading a list of bytes -/

theorem State.writeBytes_eq (s : State) (addr : Addr) (bs : List Byte) :
    s.writeBytes addr bs = { s with mem := (s.writeBytes addr bs).mem } := by
  induction bs generalizing s addr with
  | nil => rfl
  | cons b bs ih =>
    show (s.writeByte addr b).writeBytes (addr + 1) bs = { s with mem := ((s.writeByte addr b).writeBytes (addr + 1) bs).mem }
    exact ih (s.writeByte addr b) (addr + 1)

/-! ### The call -/

/-- R59 after the operand fetch: memory is that of the push, and the other components. -/
theorem State.call_eq (s : State) (target : Addr) :
    s.call target =
      { s with
        mem := (s.writeWord (stackAddr s.sp) (returnAddr s.pc)).mem
        sp := s.sp + s.params.jsrSpDelta
        pc := target
        cycles := s.cycles - 1 - 1 - 1 } := rfl

/-! ### The fault -/

/-- R64, R66: one opcode fetch and the record. -/
theorem takeUnhandledOpcode_eq (s : State) :
    takeUnhandledOpcode s =
      { s with pc := s.pc + 1, cycles := s.cycles - 1, status := .faulted (s.readByte s.pc) s.pc } := by
  show ((s.setPc (s.pc + 1)).charge 1).setStatus (.faulted (s.readByte s.pc) (s.pc + 1 - 1)) = _
  rw [BitVec.add_sub_cancel]
  rfl

end Sys2Proof.Machine
end

