-- ==== Sys2Proof/Laws/Step.lean ====
section
/-! SUPPORT. What an instruction and a step can do, once: the invariants are derived from these, not from the
definitions. -/

namespace Sys2Proof.Machine

/-! ### The instructions, as what they do over the shared operations -/

theorem exec_ldaImm (imm : Byte) (s : State) : exec (.ldaImm imm) s = .next ((s.consume 2).loadA imm) := rfl

theorem exec_ldaZp (zp : Byte) (s : State) :
    exec (.ldaZp zp) s = .next (((s.consume 2).charge 1).loadA (s.readByte (zeroPageAddr zp))) := rfl

theorem exec_ldaZpX (zp : Byte) (s : State) :
    exec (.ldaZpX zp) s =
      .next ((((s.consume 2).charge 1).charge 1).loadA (s.readByte (zeroPageXAddr zp s.x))) := rfl

theorem exec_jsrAbs (target : Addr) (s : State) :
    exec (.jsrAbs target) s = .next ((s.consume 3).call target) := rfl

/-- R59: the return address is that of the last byte of the three. -/
theorem returnAddr_add_three (pc : Addr) : returnAddr (pc + 3) = pc + 2 := by
  rw [returnAddr, show pc + 3 = pc + 2 + 1 by rw [BitVec.add_assoc]; rfl, BitVec.add_sub_cancel]

/-- The shape of an instruction's next state: a load into A with no memory written, or a call. -/
theorem exec_cases {i : Instr} {s t : State} (h : exec i s = .next t) :
    (∃ v n, 2 ≤ n ∧ n ≤ 4 ∧
      t = { s with pc := s.pc + 2, a := v, flagZ := zeroOf v, flagN := negativeOf v, cycles := s.cycles - n }) ∨
    (∃ target, i = .jsrAbs target ∧
      t = { s with
            mem := (s.writeWord (stackAddr s.sp) (s.pc + 2)).mem
            sp := s.sp + s.params.jsrSpDelta
            pc := target
            cycles := s.cycles - 6 }) := by
  cases i with
  | ldaImm imm =>
    rw [exec_ldaImm] at h
    cases h
    exact .inl ⟨imm, 2, by omega, by omega, rfl⟩
  | ldaZp zp =>
    rw [exec_ldaZp] at h
    cases h
    refine .inl ⟨s.readByte (zeroPageAddr zp), 3, by omega, by omega, ?_⟩
    rw [show s.cycles - 3 = s.cycles - 2 - 1 by omega]
    rfl
  | ldaZpX zp =>
    rw [exec_ldaZpX] at h
    cases h
    refine .inl ⟨s.readByte (zeroPageXAddr zp s.x), 4, by omega, by omega, ?_⟩
    rw [show s.cycles - 4 = s.cycles - 2 - 1 - 1 by omega]
    rfl
  | jsrAbs target =>
    rw [exec_jsrAbs] at h
    cases h
    refine .inr ⟨target, rfl, ?_⟩
    rw [State.call_eq, ← returnAddr_add_three, show s.cycles - 6 = s.cycles - 3 - 1 - 1 - 1 by omega]
    rfl

/-! ### The step -/

theorem step_faulted {s : State} {op : Byte} {addr : Addr} (h : s.status = .faulted op addr) :
    step s = .fault (.unhandledOpcode op addr) := by
  unfold step
  rw [h]

theorem step_idle {s : State} (h : s.status = .running) (hc : s.cycles ≤ 0) : step s = .next s := by
  unfold step
  rw [h]
  exact if_pos hc

/-- Inside an `Execute` call with budget left, the bytes at PC decide. -/
theorem step_running {s : State} (h : s.status = .running) (hc : 0 < s.cycles) :
    step s =
      match decode s.fetchWindow with
      | .ok (i, _) => exec i s
      | .error _ => .next (takeUnhandledOpcode s) := by
  unfold step
  rw [h]
  exact if_neg (by omega)

/-- What a step does, guards included. -/
theorem step_cases (s : State) :
    (∃ op addr, s.status = .faulted op addr ∧ step s = .fault (.unhandledOpcode op addr)) ∨
    (s.status = .running ∧ s.cycles ≤ 0 ∧ step s = .next s) ∨
    (s.status = .running ∧ 0 < s.cycles ∧ decodeOpcode (s.readByte s.pc) = none ∧
      step s = .next (takeUnhandledOpcode s)) ∨
    (∃ i more, s.status = .running ∧ 0 < s.cycles ∧ decodeOpcode (s.readByte s.pc) = some i.mnemonic ∧
      s.fetchWindow = encode i ++ more ∧ step s = exec i s) := by
  cases hs : s.status with
  | faulted op addr => exact .inl ⟨op, addr, rfl, step_faulted hs⟩
  | running =>
    by_cases hc : s.cycles ≤ 0
    · exact .inr (.inl ⟨rfl, hc, step_idle hs hc⟩)
    · have hpos : 0 < s.cycles := by omega
      have hwin : s.fetchWindow = [s.readByte s.pc, s.readByte (s.pc + 1), s.readByte (s.pc + 2)] := rfl
      rcases decode_cases (s.readByte s.pc) (s.readByte (s.pc + 1)) (s.readByte (s.pc + 2)) [] with
        ⟨i, more, hd, hop, henc⟩ | ⟨hop, hd⟩
      · exact .inr (.inr (.inr ⟨i, more, rfl, hpos, hop, hwin.trans henc, by rw [step_running hs hpos, hwin, hd]⟩))
      · exact .inr (.inr (.inl ⟨rfl, hpos, hop, by rw [step_running hs hpos, hwin, hd]⟩))

/-! ### Runs of the host's interface -/

theorem run_next {n : Nat} {s t : State} (h : step s = .next t) :
    Host.Core.run core (n + 1) s = Host.Core.run core n t := by
  have key : ∀ (M : Host.Core) (s t : M.State), M.step s = .next t → M.run (n + 1) s = M.run n t := by
    intro M s t h
    rw [Host.Core.run, h]
  exact key core s t h

theorem run_fault {n : Nat} {s : State} {r : Fault} (h : step s = .fault r) :
    Host.Core.run core (n + 1) s = .fault r := by
  have key : ∀ (M : Host.Core) (s : M.State) (r : M.Fault), M.step s = .fault r → M.run (n + 1) s = .fault r := by
    intro M s r h
    rw [Host.Core.run, h]
  exact key core s r h

end Sys2Proof.Machine
end

