-- ==== Sys2Proof/Laws/Execute.lean ====
section
/-! SUPPORT. The loop of `Execute`, one turn at a time. -/

namespace Sys2Proof.Machine

/-- R45: the loop test. -/
theorem State.canStep_iff {s : State} : s.canStep = true ↔ s.status = .running ∧ 0 < s.cycles := by
  rw [State.canStep, Bool.and_eq_true, decide_eq_true_eq, decide_eq_true_eq]

/-- Where the loop test fails, no fuel moves the machine. -/
theorem executeLoop_stop {s : State} (h : s.canStep = false) (fuel : Nat) : executeLoop fuel s = s := by
  cases fuel with
  | zero => rfl
  | succ fuel => rw [executeLoop, h]; rfl

/-- Where it holds, the loop takes one step and goes on. -/
theorem executeLoop_next {s t : State} (h : s.canStep = true) (ht : step s = .next t) (fuel : Nat) :
    executeLoop (fuel + 1) s = executeLoop fuel t := by
  rw [executeLoop, h, ht]
  rfl

end Sys2Proof.Machine
end

