-- ==== Sys2Proof/Laws/PerInstr.lean ====
section
/-! SUPPORT. A statement about every instruction as syntax, one lemma per constructor. -/

namespace Sys2Proof.Laws

/-- R38, R39: an instruction's bytes are its row's opcode and then its operands, as many as its format says, and it is
well formed (R43). -/
def FormatLength.Statement (i : Instr) : Prop :=
  i.wellFormed = true ∧ (encode i).length = i.length ∧ (encode i).head? = some (opcodeOf i.mnemonic)

theorem FormatLength.ldaImm (imm : Byte) : FormatLength.Statement (.ldaImm imm) := ⟨rfl, rfl, rfl⟩

theorem FormatLength.ldaZp (zp : Byte) : FormatLength.Statement (.ldaZp zp) := ⟨rfl, rfl, rfl⟩

theorem FormatLength.ldaZpX (zp : Byte) : FormatLength.Statement (.ldaZpX zp) := ⟨rfl, rfl, rfl⟩

theorem FormatLength.jsrAbs (target : Addr) : FormatLength.Statement (.jsrAbs target) := ⟨rfl, rfl, rfl⟩

end Sys2Proof.Laws
end

