-- ==== Sys2Proof/Tests/Slice0.lean ====
section
/-! SUPPORT. The model's own tests, few and small. Expected values are those of spec/95_test_vectors.md, named by its ids,
or are worked out from the rule cited. At the end, one witness for each obligation that has hypotheses. -/

namespace Sys2Proof.Tests

open Sys2Proof.Machine

/-- S0 of the test vectors with bytes loaded at an address, PC there, inside an `Execute` call. -/
def start (budget : Int) (addr : Addr) (bytes : List Byte) : State :=
  ((State.reset.writeBytes addr bytes).setPc addr).setCycles budget

/-- What is seen of the next state, if there is one. -/
def seen {α : Type} (o : Host.Outcome State Fault Refusal) (f : State → α) : Option α :=
  match o with
  | .next t => some (f t)
  | .fault _ => none
  | .refused _ => none

/-! ### Decoding: bytes written out from R39 and R40 -/

/-- R40: 1010 1001, then the operand byte. -/
theorem test_decode_ldaImm : decode [0b10101001#8, 0x80#8] = .ok (.ldaImm 0x80#8, []) := by decide

/-- R40: 1010 0101. -/
theorem test_decode_ldaZp : decode [0b10100101#8, 0x42#8] = .ok (.ldaZp 0x42#8, []) := by decide

/-- R40: 1011 0101. -/
theorem test_decode_ldaZpX : decode [0b10110101#8, 0xFE#8] = .ok (.ldaZpX 0xFE#8, []) := by decide

/-- R40: 0010 0000; R41: the low byte of the target first. -/
theorem test_decode_jsrAbs : decode [0b00100000#8, 0x34#8, 0x12#8] = .ok (.jsrAbs 0x1234#16, []) := by decide

/-- R42: the bytes next to an opcode, and the 6502's RTS, NOP and BRK, are unhandled. -/
theorem test_decode_unhandled :
    [0xA8#8, 0xA4#8, 0xB4#8, 0x21#8, 0x60#8, 0xEA#8, 0x00#8].all (fun op =>
      decide (decode [op, 0#8, 0#8] = .error (.unhandledOpcode op))) = true := by decide

/-- R39: a JSR cut after its second byte is no instruction. -/
theorem test_decode_truncated : decode [0x20#8, 0x34#8] = .error (.truncated .jsrAbs) := by decide

theorem test_decode_nothing : decode [] = .error .noBytes := by decide

/-- The table numbers bits from the first byte up; bits it gives no row are 0. -/
theorem test_decodeTableWord :
    decodeTableWord 16 0x80A9 = some (.ldaImm 0x80#8) ∧ decodeTableWord 24 0x123420 = some (.jsrAbs 0x1234#16) ∧
      decodeTableWord 8 0x20 = some (.jsrAbs 0#16) ∧ decodeTableWord 8 0x60 = none := by decide

/-! ### Well-formedness: for each check, a term it refuses -/

theorem test_opcodeTable_wellFormed : OpcodeRow.tableWellFormed opcodeTable = true := by decide

theorem test_refuses_shared_opcode :
    OpcodeRow.opcodesDistinct [⟨0xA9#8, .ldaImm, .imm8⟩, ⟨0xA9#8, .ldaZp, .zp8⟩] = false := by decide

theorem test_refuses_second_row :
    OpcodeRow.mnemonicsDistinct [⟨0xA9#8, .ldaImm, .imm8⟩, ⟨0xA8#8, .ldaImm, .imm8⟩] = false := by decide

theorem test_refuses_missing_row :
    OpcodeRow.mnemonicsPresent (opcodeTable.drop 1) = false := by decide

/-- R43: operands at the ends of their ranges are legal. -/
theorem test_operands_legal :
    [Instr.ldaImm 0xFF#8, .ldaZp 0x00#8, .ldaZpX 0xFF#8, .jsrAbs 0xFFFF#16].all Instr.wellFormed = true := by decide

/-- Memory out of order, listed twice, listing an unlisted value, and outside the store. -/
theorem test_refuses_memory_forms :
    Memory.wf [(2, 1#8), (1, 1#8)] = false ∧ Memory.wf [(1, 1#8), (1, 2#8)] = false ∧
      Memory.wf [(1, 0#8)] = false ∧ Memory.wf [(65536, 1#8)] = false ∧ Memory.wf [(65535, 1#8)] = true := by decide

/-- R19, R22: writing 0x00 takes the entry out. -/
theorem test_write_canonical :
    ((Memory.write [] 5 1#8).write 3 2#8).write 5 0#8 = [(3, 2#8)] := by decide

/-! ### One step -/

/-- Vector I1. -/
theorem test_ldaImm_negative :
    seen (step (start 2 0xFFFC#16 [0xA9#8, 0x80#8])) (fun t => (t.a, t.flagZ, t.flagN, t.pc, t.cycles)) =
      some (0x80#8, false, true, 0xFFFE#16, 0) := by decide

/-- Vector I2: the operand of an instruction at 0xFFFF is at 0x0000. -/
theorem test_ldaImm_wraps :
    seen (step (start 2 0xFFFF#16 [0xA9#8, 0x33#8])) (fun t => (t.a, t.pc)) = some (0x33#8, 0x0001#16) := by decide

/-- Vector P3: 0x00FF is read, not 0x01FF. -/
theorem test_ldaZp_page :
    seen (step ((start 3 0xFFFC#16 [0xA5#8, 0xFF#8]).writeByte 0x01FF#16 0x55#8)) (fun t => (t.a, t.flagZ, t.cycles)) =
      some (0x00#8, true, 0) := by decide

/-- Vector P4: the operand itself is read. -/
theorem test_ldaZp_own_operand :
    seen (step (start 3 0x0000#16 [0xA5#8, 0x01#8])) (fun t => (t.a, t.pc)) = some (0x01#8, 0x0002#16) := by decide

/-- Vector Q2: 0xFE + 5 is 0x03, not 0x103; no Carry. -/
theorem test_ldaZpX_wraps :
    seen (step ((((start 4 0xFFFC#16 [0xB5#8, 0xFE#8]).setX 5#8).writeByte 0x0003#16 0x11#8).writeByte 0x0103#16 0x22#8))
      (fun t => (t.a, t.flagC, t.x)) = some (0x11#8, false, 5#8) := by decide

/-- Vector Q6: it runs fully on a budget of 3, and costs 4. -/
theorem test_ldaZpX_overruns :
    seen (step ((start 3 0xFFFC#16 [0xB5#8, 0x10#8]).writeByte 0x0010#16 0x42#8)) (fun t => (t.a, t.cycles)) =
      some (0x42#8, -1) := by decide

/-- Vector J2: with SP = 0xFF the high byte leaves the stack page. -/
theorem test_jsr_stack_page :
    seen (step ((start 6 0xFFFC#16 [0x20#8, 0x00#8, 0x80#8]).setSp 0xFF#8))
      (fun t => (t.readByte 0x01FF#16, t.readByte 0x0200#16, t.sp, t.pc, t.cycles)) =
      some (0xFE#8, 0xFF#8, 0x01#8, 0x8000#16, 0) := by decide

/-- Vector J6: JSR at 0xFFFF; the return address is 0x0001. The machine's `jsr_sp_delta` is -2, one of the alternatives
of decision D4: SP goes from 0x00 to 0xFE. -/
theorem test_jsr_wraps :
    seen (step { start 6 0xFFFF#16 [0x20#8, 0x00#8, 0xA0#8] with params := { jsrSpDelta := 0xFE#8 } })
      (fun t => (t.readByte 0x0100#16, t.readByte 0x0101#16, t.pc, t.sp)) =
      some (0x01#8, 0x00#8, 0xA000#16, 0xFE#8) := by decide

/-- Vector W7. -/
theorem test_unhandled_entry :
    seen (step (start 10 0xFFFC#16 [0xFF#8])) (fun t => (t.status, t.pc, t.cycles)) =
      some (.faulted 0xFF#8 0xFFFC#16, 0xFFFD#16, 9) := by decide

/-- R53, R67: after the fault the machine has halted. -/
theorem test_faulted_halts :
    step ((start 10 0xFFFD#16 []).setStatus (.faulted 0xFF#8 0xFFFC#16)) matches
      .fault (.unhandledOpcode 0xFF#8 0xFFFC#16) := by decide

/-- Vector U4: with no budget the byte 0xFF is not fetched. -/
theorem test_no_budget_no_fetch :
    seen (step (start 0 0xFFFC#16 [0xFF#8])) (fun t => (t.status, t.pc, t.cycles)) =
      some (.running, 0xFFFC#16, 0) := by decide

/-- The host's probe: a table word placed in the reset state runs at once. -/
theorem test_withFetchWord :
    seen (step (State.reset.withFetchWord 24 0x800020)) (fun t => (t.pc, t.sp)) = some (0x8000#16, 2#8) := by decide

/-! ### Execute and the host -/

/-- Vector X6: Execute(1) runs the whole JSR. -/
theorem test_execute_overrun :
    (execute 1 (start 0 0xFFFC#16 [0x20#8, 0x00#8, 0x80#8])).cycles = -5 := by decide

/-- Vector X7: a faulted machine gives the budget back. -/
theorem test_execute_faulted :
    execute 5 ((start 0 0xFFFD#16 []).setStatus (.faulted 0xFF#8 0xFFFC#16)) =
      ⟨(start 5 0xFFFD#16 []).setStatus (.faulted 0xFF#8 0xFFFC#16), 5, .unhandledOpcode⟩ := by decide

/-- R61. -/
theorem test_stop_codes : StopReason.budgetExhausted.code = 0 ∧ StopReason.unhandledOpcode.code = 1 := by decide

/-- Vector RS1. -/
theorem test_reset_from_fault :
    applyHostOp .reset (((start 3 0x1234#16 []).writeByte 0x8000#16 0xAB#8).setStatus (.faulted 0#8 0#16)) =
      State.reset := by decide

/-! ### Witnesses: a concrete state and operands that meet all the hypotheses of an obligation together -/

/-- An LDA #$80 about to run; most hypotheses are met by it. -/
def ldaReady : State := start 2 0xFFFC#16 [0xA9#8, 0x80#8]

/-- A JSR $8000 about to run on a budget of 1. -/
def jsrReady : State := start 1 0xFFFC#16 [0x20#8, 0x00#8, 0x80#8]

/-- An unhandled opcode about to be fetched on a budget of 1. -/
def faultReady : State := start 1 0xFFFC#16 [0x60#8]

/-- Halted on it. -/
def halted : State := takeUnhandledOpcode faultReady

theorem ldaReady_inv : ldaReady.Inv := ⟨by decide, by decide, fun _ _ h => nomatch (show Status.running = .faulted _ _ from h)⟩

theorem witness_DecodedBytesAreTheEncoding :
    decode [0xA5#8, 0xFF#8, 0x07#8] = .ok (.ldaZp 0xFF#8, [0x07#8]) := by decide

theorem witness_OperandAssembly :
    decodeOpcode 0xA9#8 = some .ldaImm ∧ decodeOpcode 0xA5#8 = some .ldaZp ∧ decodeOpcode 0xB5#8 = some .ldaZpX ∧
      decodeOpcode 0x20#8 = some .jsrAbs := by decide

theorem witness_StepRunsDecodedInstruction :
    jsrReady.status = .running ∧ 0 < jsrReady.cycles ∧
      ∀ (k : Nat) (h : k < (encode (.jsrAbs 0x8000#16)).length),
        jsrReady.readByte (jsrReady.pc + BitVec.ofNat 16 k) = (encode (.jsrAbs 0x8000#16))[k] := by decide

theorem witness_PlacedWordRunsNext : decodeTableWord 8 0xA9 = some (.ldaImm 0#8) := by decide

theorem witness_UnhandledOpcodeEntry :
    faultReady.status = .running ∧ 0 < faultReady.cycles ∧ faultReady.readByte faultReady.pc ≠ 0xA9#8 ∧
      faultReady.readByte faultReady.pc ≠ 0xA5#8 ∧ faultReady.readByte faultReady.pc ≠ 0xB5#8 ∧
      faultReady.readByte faultReady.pc ≠ 0x20#8 := by decide

theorem witness_ExhaustedBudgetFetchesNothing : State.reset.status = .running ∧ State.reset.cycles ≤ 0 := by decide

theorem witness_FaultedMachineHalts : halted.status = .faulted 0x60#8 0xFFFC#16 := by decide

theorem witness_StepIsTheSpecPseudocode : jsrReady.status = .running ∧ 0 < jsrReady.cycles := by decide

theorem witness_LdaImmAtPc :
    ldaReady.status = .running ∧ 0 < ldaReady.cycles ∧ ldaReady.readByte ldaReady.pc = 0xA9#8 := by decide

theorem witness_LdaZpAtPc :
    let s := (start 3 0xFFFC#16 [0xA5#8, 0xFF#8]).writeByte 0x00FF#16 0x37#8
    s.status = .running ∧ 0 < s.cycles ∧ s.readByte s.pc = 0xA5#8 ∧
      0x37#8 = s.readByte ((s.readByte (s.pc + 1)).setWidth 16) := by decide

theorem witness_LdaZpXAtPc :
    let s := ((start 4 0xFFFC#16 [0xB5#8, 0xFE#8]).setX 5#8).writeByte 0x0003#16 0x11#8
    s.status = .running ∧ 0 < s.cycles ∧ s.readByte s.pc = 0xB5#8 ∧
      0x11#8 = s.readByte ((s.readByte (s.pc + 1) + s.x).setWidth 16) := by decide

theorem witness_JsrAtPc :
    jsrReady.status = .running ∧ 0 < jsrReady.cycles ∧ jsrReady.readByte jsrReady.pc = 0x20#8 := by decide

theorem witness_LoadFrame_imm : ∃ t, exec (.ldaImm 0xFF#8) ldaReady = .next t := ⟨_, rfl⟩

theorem witness_LoadFrame_zp : ∃ t, exec (.ldaZp 0xFF#8) ldaReady = .next t := ⟨_, rfl⟩

theorem witness_LoadFrame_zpX : ∃ t, exec (.ldaZpX 0xFF#8) ldaReady = .next t := ⟨_, rfl⟩

theorem witness_JsrFrame :
    (∃ t, exec (.jsrAbs 0x8000#16) (jsrReady.setSp 0xFF#8) = .next t) ∧ (0x0100#16 ≠ stackAddr 0xFF#8) ∧
      (0x0100#16 ≠ stackAddr 0xFF#8 + 1) := ⟨⟨_, rfl⟩, by decide⟩

theorem witness_JsrResult : jsrReady.params = defaultParams ∧ 0x0102#16 ≠ 0x0100#16 + (0#8).setWidth 16 ∧ 0x0102#16 ≠ 0x0101#16 + (0#8).setWidth 16 := by
  decide

theorem witness_ZeroNegativeDerivation :
    (State.reset.setZN 0x00#8).flagZ = true ∧ (State.reset.setZN 0x80#8).flagN = true ∧
      (State.reset.setZN 0x7F#8).flagN = false := by decide

theorem witness_WriteByteChangesOneCell :
    0x0000#16 ≠ 0xFFFF#16 ∧ ([Instr.ldaImm 0xFF#8, .ldaZp 0xFF#8, .ldaZpX 0xFF#8].all fun i =>
      decide (i = .ldaImm 0xFF#8 ∨ i = .ldaZp 0xFF#8 ∨ i = .ldaZpX 0xFF#8)) = true := by decide

/-- The word whose second byte wraps to 0x0000. -/
theorem witness_WriteWordLittleEndian : 0x0001#16 ≠ 0xFFFF#16 ∧ 0x0001#16 ≠ 0xFFFF#16 + 1#16 := by decide

theorem witness_FirstInstructionIsAtFFFC :
    jsrReady = { resetFrom halted with mem := jsrReady.mem, cycles := 1 } ∧ (0 : Int) < 1 ∧
      ∀ (k : Nat) (h : k < (encode (.jsrAbs 0x8000#16)).length),
        jsrReady.readByte (0xFFFC#16 + BitVec.ofNat 16 k) = (encode (.jsrAbs 0x8000#16))[k] := by decide

theorem witness_StepKeepsInvariant : ldaReady.Inv ∧ ∃ t, step ldaReady = .next t :=
  ⟨ldaReady_inv, _, rfl⟩

theorem witness_ExecuteKeepsInvariant : ldaReady.Inv := ldaReady_inv

theorem witness_HostOpsKeepMemoryCanonical : jsrReady.mem.wf = true := by decide

theorem witness_ParametersNeverChange : ∃ t, step jsrReady = .next t := ⟨_, rfl⟩

theorem witness_NoStepWritesIndexesOrInertFlags : ∃ t, step jsrReady = .next t := ⟨_, rfl⟩

theorem witness_StepReadsNoFlagOrAccumulator :
    jsrReady.SameInputs (jsrReady.setFlag .z true) ∧ ∃ t, step jsrReady = .next t :=
  ⟨⟨rfl, rfl, rfl, rfl, rfl, rfl, rfl⟩, _, rfl⟩

theorem witness_OnlyJsrWritesMemory :
    ∃ t, step jsrReady = .next t ∧ t.readByte 0x0101#16 ≠ jsrReady.readByte 0x0101#16 := ⟨_, rfl, by decide⟩

theorem witness_CyclesOnlyFall : (∃ t, step jsrReady = .next t) ∧ 0 < jsrReady.cycles := ⟨⟨_, rfl⟩, by decide⟩

theorem witness_StatusChangesOnlyByUnhandledOpcode :
    ∃ t, step faultReady = .next t ∧ t.status ≠ faultReady.status := ⟨_, rfl, by decide⟩

theorem witness_FaultLastsUntilReset :
    halted.status ≠ .running ∧ HostOp.execute 7 ≠ .reset ∧ HostOp.reset = .reset := by decide

theorem witness_SafeRunsEndRunning : SafeRun 1 ldaReady := ⟨rfl, _, rfl, rfl⟩

theorem witness_NonpositiveBudgetRunsNothing : (0 : Int) ≤ 0 ∧ (-3 : Int) ≤ 0 := by decide

theorem witness_ExecuteOnFaultedDoesNothing : halted.status = .faulted 0x60#8 0xFFFC#16 := by decide

theorem witness_ExecuteTakesOneStepAndGoesOn :
    jsrReady.status = .running ∧ (0 : Int) < 1 ∧ ∃ t, step { jsrReady with cycles := 1 } = .next t :=
  ⟨rfl, by decide, _, rfl⟩

theorem witness_ExecuteEndsByItsLoopTest : (2 : Int).toNat ≤ 2 ∧ (-1 : Int).toNat ≤ 0 := by decide

theorem witness_OverrunIsAtMostFive : jsrReady.status = .running ∧ (0 : Int) < 1 := by decide

/-- The second budget at its least, where the first call overran. -/
theorem witness_TwoCallsAreOne : (0 : Int) ≤ 0 ∧ (execute 1 jsrReady).cycles ≤ 0 := by decide

/-- The second budget at its least, where the first call ended in the fault with a cycle left. -/
theorem witness_TwoCallsAreOne_fault : (0 : Int) ≤ 1 ∧ (execute 2 faultReady).cycles ≤ 1 := by decide

end Sys2Proof.Tests
end

/-! ## Proofs: the machine's arguments are fixed -/

namespace Sys2Proof.Machine

/-! ### What a step that answers a state does, and the induction over `Execute`'s loop -/

/-- The inversion of a step that answers a next state: it idles without budget, takes the fault, or runs one
instruction. -/
theorem step_next_cases {s t : State} (h : step s = .next t) :
    s.status = .running ∧
      ((s.cycles ≤ 0 ∧ t = s) ∨
       (0 < s.cycles ∧ decodeOpcode (s.readByte s.pc) = none ∧ t = takeUnhandledOpcode s) ∨
       (0 < s.cycles ∧ ∃ i more, decodeOpcode (s.readByte s.pc) = some i.mnemonic ∧
          s.fetchWindow = encode i ++ more ∧ exec i s = .next t)) := by
  obtain ⟨op, addr, -, hstep⟩ | ⟨hrun, hc, hstep⟩ | ⟨hrun, hc, hop, hstep⟩ | ⟨i, more, hrun, hc, hop, hwin, hstep⟩ :=
    step_cases s <;> rw [hstep] at h
  · cases h
  · cases h
    exact ⟨hrun, .inl ⟨hc, rfl⟩⟩
  · cases h
    exact ⟨hrun, .inr (.inl ⟨hc, hop, rfl⟩)⟩
  · exact ⟨hrun, .inr (.inr ⟨hc, i, more, hop, hwin, h⟩)⟩

/-- What every step taken under the loop test keeps, the loop keeps. -/
theorem executeLoop_induction {P : State → Prop}
    (hstep : ∀ {s t : State}, s.canStep = true → step s = .next t → P s → P t)
    (fuel : Nat) {s : State} (hs : P s) : P (executeLoop fuel s) := by
  induction fuel generalizing s with
  | zero => exact hs
  | succ fuel ih =>
    cases hcan : s.canStep with
    | false => rwa [executeLoop_stop hcan]
    | true =>
      cases ht : step s with
      | next t =>
        rw [executeLoop_next hcan ht]
        exact ih (hstep hcan ht hs)
      | fault r =>
        rw [executeLoop, hcan, ht]
        exact hs
      | refused r =>
        rw [executeLoop, hcan, ht]
        exact hs

/-! ### The operations keep the arguments -/

@[simp] theorem takeUnhandledOpcode_params (s : State) : (takeUnhandledOpcode s).params = s.params := rfl

@[simp] theorem resetFrom_params (s : State) : (resetFrom s).params = s.params := rfl

@[simp] theorem State.setRegister_params (s : State) (r : RegisterName) (v : Byte) :
    (s.setRegister r v).params = s.params := by
  cases r <;> rfl

@[simp] theorem State.setFlag_params (s : State) (f : FlagName) (bit : Bool) :
    (s.setFlag f bit).params = s.params := by
  cases f <;> rfl

/-- R58: JSR reads `jsr_sp_delta`, and no instruction writes it. -/
theorem exec_keeps_params {i : Instr} {s t : State} (h : exec i s = .next t) : t.params = s.params := by
  obtain ⟨v, n, -, -, rfl⟩ | ⟨target, -, rfl⟩ := exec_cases h <;> rfl

theorem step_keeps_params {s t : State} (h : step s = .next t) : t.params = s.params := by
  obtain ⟨-, ⟨-, rfl⟩ | ⟨-, -, rfl⟩ | ⟨-, i, more, -, -, hexec⟩⟩ := step_next_cases h
  · rfl
  · exact takeUnhandledOpcode_params s
  · exact exec_keeps_params hexec

@[simp] theorem executeLoop_params (fuel : Nat) (s : State) : (executeLoop fuel s).params = s.params :=
  executeLoop_induction (P := fun t => t.params = s.params)
    (fun _ ht hs => (step_keeps_params ht).trans hs) fuel rfl

@[simp] theorem execute_params (budget : Int) (s : State) : (execute budget s).state.params = s.params :=
  executeLoop_params budget.toNat (s.setCycles budget)

/-- R83: no row of the host's table names the arguments. -/
theorem applyHostOp_params (op : HostOp) (s : State) : (applyHostOp op s).params = s.params := by
  cases op with
  | reset => exact resetFrom_params s
  | load addr byte => exact s.writeByte_params addr byte
  | setRegister r v => exact s.setRegister_params r v
  | setPc v => exact s.setPc_params v
  | setFlag f bit => exact s.setFlag_params f bit
  | execute budget => exact execute_params budget s
  | inspect => rfl

/-- Settles O54: a step by its inversion, Execute by the induction over its loop, every other host operation by its
own frame lemma. -/
theorem parametersNeverChange : Obligations.ParametersNeverChange :=
  ⟨fun _ _ => step_keeps_params, applyHostOp_params⟩

end Sys2Proof.Machine

/-! ## Proofs: the architectural state, what steps write and read of it, and Reset -/

namespace Sys2Proof

/-! ### The decoder -/

/-- An encoding is read back, whatever follows it. -/
theorem decode_encode_append (i : Instr) (rest : List Byte) : decode (encode i ++ rest) = .ok (i, rest) := by
  cases i with
  | ldaImm imm => rfl
  | ldaZp zp => rfl
  | ldaZpX zp => rfl
  | jsrAbs target =>
    show Except.ok (Instr.jsrAbs (wordOfBytes (highByte target) (lowByte target)), rest) = _
    rw [wordOfBytes_high_low]

/-- R42, with the bytes of decision D1 written out. -/
theorem notMem_opcodes_of_decodeOpcode_eq_none {op : Byte} (h : decodeOpcode op = none) :
    op ∉ [0xA9#8, 0xA5#8, 0xB5#8, 0x20#8] := by
  have hne := decodeOpcode_eq_none.mp h
  simp only [List.mem_cons, List.not_mem_nil, or_false, not_or]
  exact ⟨hne .ldaImm, hne .ldaZp, hne .ldaZpX, hne .jsrAbs⟩

end Sys2Proof

namespace Sys2Proof.Machine

/-! ### Which step is taken, and what it writes -/

theorem step_unhandled {s : State} (h : s.status = .running) (hc : 0 < s.cycles)
    (hop : decodeOpcode (s.readByte s.pc) = none) : step s = .next (takeUnhandledOpcode s) := by
  rw [step_running h hc, State.fetchWindow, decode_unhandled hop]

theorem step_of_fetchWindow {s : State} {i : Instr} {more : List Byte} (h : s.status = .running)
    (hc : 0 < s.cycles) (hwin : s.fetchWindow = encode i ++ more) : step s = exec i s := by
  rw [step_running h hc, hwin, decode_encode_append]

/-- A step that answers a next state, as what it writes: nothing, the fault record, a load into A, or a call. -/
theorem step_next_writes {s t : State} (h : step s = .next t) :
    s.status = .running ∧
      ((s.cycles ≤ 0 ∧ t = s) ∨
       (0 < s.cycles ∧ decodeOpcode (s.readByte s.pc) = none ∧
          t = { s with pc := s.pc + 1, cycles := s.cycles - 1, status := .faulted (s.readByte s.pc) s.pc }) ∨
       (0 < s.cycles ∧ ∃ v n, 2 ≤ n ∧ n ≤ 4 ∧
          t = { s with pc := s.pc + 2, a := v, flagZ := zeroOf v, flagN := negativeOf v, cycles := s.cycles - n }) ∨
       (0 < s.cycles ∧ decodeOpcode (s.readByte s.pc) = some .jsrAbs ∧ ∃ target,
          t = { s with
                mem := (s.writeWord (stackAddr s.sp) (s.pc + 2)).mem
                sp := s.sp + s.params.jsrSpDelta
                pc := target
                cycles := s.cycles - 6 })) := by
  obtain ⟨hrun, ⟨hc, rfl⟩ | ⟨hc, hop, rfl⟩ | ⟨hc, i, more, hop, -, hexec⟩⟩ := step_next_cases h
  · exact ⟨hrun, .inl ⟨hc, rfl⟩⟩
  · exact ⟨hrun, .inr (.inl ⟨hc, hop, takeUnhandledOpcode_eq s⟩)⟩
  · obtain hload | ⟨target, rfl, hcall⟩ := exec_cases hexec
    · exact ⟨hrun, .inr (.inr (.inl ⟨hc, hload⟩))⟩
    · exact ⟨hrun, .inr (.inr (.inr ⟨hc, hop, target, hcall⟩))⟩

/-- Settles O40: none of the four ways a step writes names X, Y, C, I, D, B or V. -/
theorem noStepWritesIndexesOrInertFlags : Obligations.NoStepWritesIndexesOrInertFlags := by
  intro s t h
  obtain ⟨-, ⟨-, rfl⟩ | ⟨-, -, rfl⟩ | ⟨-, v, n, -, -, rfl⟩ | ⟨-, -, target, rfl⟩⟩ := step_next_writes h <;>
    exact ⟨rfl, rfl, rfl, rfl, rfl, rfl, rfl⟩

/-- Settles O44: a step without budget charges nothing; the fault charges 1, a load 2 to 4, a call 6. -/
theorem cyclesOnlyFall : Obligations.CyclesOnlyFall := by
  intro s t h
  obtain ⟨-, ⟨hc, rfl⟩ | ⟨-, -, rfl⟩ | ⟨-, v, n, hn, -, rfl⟩ | ⟨-, -, target, rfl⟩⟩ := step_next_writes h
  · omega
  · show s.cycles - 1 ≤ s.cycles ∧ (0 < s.cycles → s.cycles - 1 < s.cycles)
    omega
  · show s.cycles - n ≤ s.cycles ∧ (0 < s.cycles → s.cycles - n < s.cycles)
    omega
  · show s.cycles - 6 ≤ s.cycles ∧ (0 < s.cycles → s.cycles - 6 < s.cycles)
    omega

/-- Settles O45: of the four ways a step writes, only the fault names the status. -/
theorem statusChangesOnlyByUnhandledOpcode : Obligations.StatusChangesOnlyByUnhandledOpcode := by
  intro s t h hne
  obtain ⟨hrun, ⟨-, rfl⟩ | ⟨hc, hop, rfl⟩ | ⟨-, v, n, -, -, rfl⟩ | ⟨-, -, target, rfl⟩⟩ := step_next_writes h
  · exact absurd rfl hne
  · exact ⟨hrun, hc, notMem_opcodes_of_decodeOpcode_eq_none hop, rfl⟩
  · exact absurd rfl hne
  · exact absurd rfl hne

/-! ### Y and the flags C, I, D, B, V are not read -/

section Inert

variable (y : Byte) (c intr d b v : Bool)

theorem takeUnhandledOpcode_withInert (s : State) :
    takeUnhandledOpcode (s.withInert y c intr d b v) = (takeUnhandledOpcode s).withInert y c intr d b v := rfl

/-- Every instruction completes, and commutes with putting values in the inert components. -/
theorem exec_withInert (i : Instr) (s : State) :
    ∃ t, exec i s = .next t ∧ exec i (s.withInert y c intr d b v) = .next (t.withInert y c intr d b v) := by
  cases i with
  | ldaImm imm => exact ⟨_, exec_ldaImm imm s, rfl⟩
  | ldaZp zp => exact ⟨_, exec_ldaZp zp s, rfl⟩
  | ldaZpX zp => exact ⟨_, exec_ldaZpX zp s, rfl⟩
  | jsrAbs target => exact ⟨_, exec_jsrAbs target s, rfl⟩

end Inert

/-- Settles O41: the inert components decide neither which step is taken nor, in any of them, what is written. -/
theorem inertStateHasNoEffect : Obligations.InertStateHasNoEffect := by
  intro s y c intr d b v
  obtain ⟨op, addr, hs, hstep⟩ | ⟨hrun, hc, hstep⟩ | ⟨hrun, hc, hop, hstep⟩ | ⟨i, more, hrun, hc, -, hwin, hstep⟩ :=
    step_cases s
  · rw [hstep]
    exact step_faulted (s := s.withInert y c intr d b v) hs
  · rw [hstep]
    exact step_idle (s := s.withInert y c intr d b v) hrun hc
  · rw [hstep, step_unhandled (s := s.withInert y c intr d b v) hrun hc hop, takeUnhandledOpcode_withInert]
  · obtain ⟨t, ht, hinert⟩ := exec_withInert y c intr d b v i s
    rw [hstep, ht]
    exact (step_of_fetchWindow (s := s.withInert y c intr d b v) hrun hc hwin).trans hinert

/-! ### A, Y and the flags are not read: each operation keeps agreement on the inputs -/

section SameInputs

variable {s t : State} (h : s.SameInputs t)
include h

theorem State.SameInputs.readByte_eq (addr : Addr) : t.readByte addr = s.readByte addr :=
  State.readByte_congr h.1.symm addr

theorem State.SameInputs.fetchWindow_eq : t.fetchWindow = s.fetchWindow := by
  have ⟨_, hpc, _⟩ := h
  simp only [State.fetchWindow, h.readByte_eq, hpc]

theorem State.SameInputs.charge (n : Nat) : (s.charge n).SameInputs (t.charge n) := by
  obtain ⟨hmem, hpc, hsp, hx, hcycles, hstatus, hparams⟩ := h
  exact ⟨hmem, hpc, hsp, hx, congrArg (· - (n : Int)) hcycles, hstatus, hparams⟩

/-- The PC is an input, and both states get the same one. -/
theorem State.SameInputs.setPc (v : Addr) : (s.setPc v).SameInputs (t.setPc v) := by
  obtain ⟨hmem, -, hrest⟩ := h
  exact ⟨hmem, rfl, hrest⟩

theorem State.SameInputs.consume (n : Nat) : (s.consume n).SameInputs (t.consume n) := by
  have ⟨_, hpc, _⟩ := h
  rw [State.consume, State.consume, hpc]
  exact (h.setPc _).charge n

/-- A load writes none of the inputs but those its fetches write. -/
theorem State.SameInputs.loadA (v : Byte) : (s.loadA v).SameInputs (t.loadA v) := h

theorem State.SameInputs.writeWord (addr v : Addr) : (s.writeWord addr v).SameInputs (t.writeWord addr v) := by
  obtain ⟨hmem, hpc, hsp, hx, hcycles, hstatus, hparams⟩ := h
  have hmem' : (s.writeWord addr v).mem = (t.writeWord addr v).mem :=
    congrArg (fun m : Memory => (m.write addr.toNat (lowByte v)).write (addr + 1).toNat (highByte v)) hmem
  exact ⟨hmem', hpc, hsp, hx, congrArg (· - 1 - 1) hcycles, hstatus, hparams⟩

theorem State.SameInputs.call (target : Addr) : (s.call target).SameInputs (t.call target) := by
  have ⟨_, hpc, hsp, _⟩ := h
  obtain ⟨hmem, -, -, hx, hcycles, hstatus, hparams⟩ := h.writeWord (stackAddr s.sp) (returnAddr s.pc)
  rw [State.call_eq, State.call_eq, ← hpc, ← hsp]
  exact ⟨hmem, rfl, by rw [show s.params = t.params from hparams], hx, congrArg (· - 1) hcycles, hstatus, hparams⟩

theorem State.SameInputs.takeUnhandledOpcode :
    (Machine.takeUnhandledOpcode s).SameInputs (Machine.takeUnhandledOpcode t) := by
  have ⟨hmem, hpc, hsp, hx, hcycles, _, hparams⟩ := h
  simp only [takeUnhandledOpcode_eq, h.readByte_eq]
  exact ⟨hmem, by rw [hpc], hsp, hx, by rw [hcycles], by rw [hpc], hparams⟩

/-- An instruction that runs in one of two states that agree on the inputs does the same in the other: a load gives
both the value read, from the operand or from memory and X, and a call leaves each its own A, Z and N. -/
theorem State.SameInputs.exec {i : Instr} {s' : State} (hs : Machine.exec i s = .next s') :
    ∃ t', Machine.exec i t = .next t' ∧ s'.SameInputs t' ∧
      ((s'.a = t'.a ∧ s'.flagZ = t'.flagZ ∧ s'.flagN = t'.flagN) ∨
        (s'.a = s.a ∧ s'.flagZ = s.flagZ ∧ s'.flagN = s.flagN ∧
          t'.a = t.a ∧ t'.flagZ = t.flagZ ∧ t'.flagN = t.flagN)) := by
  cases i with
  | ldaImm imm =>
    cases hs
    exact ⟨_, exec_ldaImm imm t, (h.consume 2).loadA imm, .inl ⟨rfl, rfl, rfl⟩⟩
  | ldaZp zp =>
    cases hs
    refine ⟨_, exec_ldaZp zp t, ?_, .inl ?_⟩ <;> rw [h.readByte_eq]
    · exact ((h.consume 2).charge 1).loadA (s.readByte (zeroPageAddr zp))
    · exact ⟨rfl, rfl, rfl⟩
  | ldaZpX zp =>
    cases hs
    have ⟨_, _, _, hx, _⟩ := h
    refine ⟨_, exec_ldaZpX zp t, ?_, .inl ?_⟩ <;> rw [h.readByte_eq, ← hx]
    · exact (((h.consume 2).charge 1).charge 1).loadA (s.readByte (zeroPageXAddr zp s.x))
    · exact ⟨rfl, rfl, rfl⟩
  | jsrAbs target =>
    cases hs
    exact ⟨_, exec_jsrAbs target t, (h.consume 3).call target, .inr ⟨rfl, rfl, rfl, rfl, rfl, rfl⟩⟩

end SameInputs

/-- Settles O42: the status, `cycles` and the bytes at PC select the same kind of step in both states. -/
theorem stepReadsNoFlagOrAccumulator : Obligations.StepReadsNoFlagOrAccumulator := by
  intro s t s' h hstep
  have ⟨_, hpc, _, _, hcycles, hstatus, _⟩ := h
  have hcases := step_next_cases hstep
  rw [hstatus, hcycles] at hcases
  obtain ⟨hrun, ⟨hc, rfl⟩ | ⟨hc, hop, rfl⟩ | ⟨hc, i, more, -, hwin, hexec⟩⟩ := hcases
  · exact ⟨t, step_idle hrun hc, h, .inr ⟨rfl, rfl, rfl, rfl, rfl, rfl⟩⟩
  · rw [← h.readByte_eq, hpc] at hop
    exact ⟨_, step_unhandled hrun hc hop, h.takeUnhandledOpcode, .inr ⟨rfl, rfl, rfl, rfl, rfl, rfl⟩⟩
  · rw [step_of_fetchWindow hrun hc (h.fetchWindow_eq.trans hwin)]
    exact h.exec hexec

/-! ### A fault and the host's operations -/

@[simp] theorem State.setRegister_status (s : State) (r : RegisterName) (v : Byte) :
    (s.setRegister r v).status = s.status := by
  cases r <;> rfl

@[simp] theorem State.setFlag_status (s : State) (f : FlagName) (bit : Bool) :
    (s.setFlag f bit).status = s.status := by
  cases f <;> rfl

@[simp] theorem resetFrom_status (s : State) : (resetFrom s).status = .running := rfl

/-- R53: on a halted machine `Execute` sets the budget and runs nothing. -/
theorem execute_state_of_not_running {s : State} (h : s.status ≠ .running) (budget : Int) :
    (execute budget s).state = s.setCycles budget := by
  have hcan : (s.setCycles budget).canStep = false :=
    Bool.eq_false_iff.mpr fun hcan => h (State.canStep_iff.mp hcan).1
  exact executeLoop_stop hcan budget.toNat

theorem applyHostOp_keeps_fault {op : HostOp} {s : State} (h : s.status ≠ .running) (hop : op ≠ .reset) :
    (applyHostOp op s).status = s.status := by
  cases op with
  | reset => exact absurd rfl hop
  | load addr byte => exact s.writeByte_status addr byte
  | setRegister r v => exact s.setRegister_status r v
  | setPc v => exact s.setPc_status v
  | setFlag f bit => exact s.setFlag_status f bit
  | execute budget =>
    show (execute budget s).state.status = s.status
    rw [execute_state_of_not_running h, State.setCycles_status]
  | inspect => rfl

/-- Settles O46: `Execute` runs nothing on a halted machine, and no other operation but Reset writes the status. -/
theorem faultLastsUntilReset : Obligations.FaultLastsUntilReset := by
  intro op s h
  refine ⟨applyHostOp_keeps_fault h, ?_⟩
  rintro rfl
  exact resetFrom_status s

/-! ### The flags by name -/

/-- R11: seven separate flags, a row of the table for each pair of names. -/
theorem State.flag_setFlag (s : State) (f g : FlagName) (bit : Bool) :
    (s.setFlag f bit).flag g = if g = f then bit else s.flag g := by
  cases f <;> cases g <;> rfl

theorem State.setFlag_eq (s : State) (f : FlagName) (bit : Bool) :
    s.setFlag f bit =
      { s with
        flagC := (s.setFlag f bit).flagC, flagZ := (s.setFlag f bit).flagZ, flagI := (s.setFlag f bit).flagI
        flagD := (s.setFlag f bit).flagD, flagB := (s.setFlag f bit).flagB, flagV := (s.setFlag f bit).flagV
        flagN := (s.setFlag f bit).flagN } := by
  cases f <;> rfl

/-- Settles O33: the host's flag write is `State.setFlag`. -/
theorem flagsAreIndependent : Obligations.FlagsAreIndependent :=
  fun s f g bit => ⟨s.flag_setFlag f g bit, s.setFlag_eq f bit⟩

/-! ### Reset -/

/-- R78: nothing of the state before Reset is left but the machine's argument. -/
theorem resetFrom_eq (s : State) : resetFrom s = { State.reset with params := s.params } := rfl

theorem resetFrom_resetFrom (s : State) : resetFrom (resetFrom s) = resetFrom s := by
  rw [resetFrom_eq (resetFrom s), resetFrom_params, ← resetFrom_eq]

theorem State.reset_flag (f : FlagName) : State.reset.flag f = false := by
  cases f <;> rfl

/-- R19: the empty list of cells reads as 0x00 everywhere. -/
theorem State.reset_readByte (addr : Addr) : State.reset.readByte addr = 0x00#8 := rfl

/-- Settles O34: `resetFrom` overwrites every component, and each value is the one in `State.reset`. -/
theorem resetValues : Obligations.ResetValues :=
  fun s => ⟨resetFrom_eq s, rfl, resetFrom_resetFrom s, rfl, rfl, rfl, rfl, rfl, State.reset_flag, rfl, rfl,
    State.reset_readByte⟩

/-- A running machine has no fault record to be true. -/
theorem State.faultRecordTrue_of_running {s : State} (h : s.status = .running) : s.faultRecordTrue := by
  intro op addr hfaulted
  rw [h] at hfaulted
  cases hfaulted

/-- Settles O36: the list of cells is empty, Z and N are clear, and the status is Running. -/
theorem resetMeetsInvariant : Obligations.ResetMeetsInvariant where
  memWf := Memory.wf_nil
  flags := rfl
  record := State.faultRecordTrue_of_running rfl

end Sys2Proof.Machine

/-! ## Proofs: memory -/

namespace Sys2Proof

/-- R41, row ABS16: `hi : lo` is `hi * 256 + lo`. -/
theorem toNat_wordOfBytes (hi lo : Byte) : (wordOfBytes hi lo).toNat = hi.toNat * 256 + lo.toNat := by
  show (hi ++ lo).toNat = _
  rw [BitVec.toNat_append, ← Nat.shiftLeft_add_eq_or_of_lt lo.isLt, Nat.shiftLeft_eq]

end Sys2Proof

namespace Sys2Proof.Machine

/-! ### Every instruction completes, so every running machine goes on -/

/-- Settles O13: each of the four meanings answers a next state, and none writes the status. -/
theorem everyInstructionCompletes : Obligations.EveryInstructionCompletes := by
  intro i s
  cases i with
  | ldaImm imm => exact ⟨_, exec_ldaImm imm s, rfl⟩
  | ldaZp zp => exact ⟨_, exec_ldaZp zp s, rfl⟩
  | ldaZpX zp => exact ⟨_, exec_ldaZpX zp s, rfl⟩
  | jsrAbs target => exact ⟨_, exec_jsrAbs target s, rfl⟩

theorem exists_step_next_of_running {s : State} (h : s.status = .running) : ∃ t, step s = .next t := by
  obtain ⟨op, addr, hfaulted, -⟩ | ⟨-, -, hstep⟩ | ⟨-, -, -, hstep⟩ | ⟨i, more, -, -, -, -, hstep⟩ := step_cases s
  · rw [h] at hfaulted
    cases hfaulted
  · exact ⟨_, hstep⟩
  · exact ⟨_, hstep⟩
  · obtain ⟨t, ht, -⟩ := everyInstructionCompletes i s
    exact ⟨t, hstep.trans ht⟩

theorem step_ne_refused (s : State) (r : Refusal) : step s ≠ .refused r := by
  cases hs : s.status with
  | running =>
    obtain ⟨t, ht⟩ := exists_step_next_of_running hs
    rw [ht]
    nofun
  | faulted op addr =>
    rw [step_faulted hs]
    nofun

/-- Settles O11: the status alone decides between a next state and the stop. -/
theorem stepGoesOnExactlyWhenRunning : Obligations.StepGoesOnExactlyWhenRunning :=
  fun s => ⟨⟨fun ⟨_, ht⟩ => (step_next_cases ht).1, exists_step_next_of_running⟩, step_ne_refused s⟩

/-! ### The invariant -/

/-- R50: no byte is both zero and negative. -/
theorem zeroOf_and_negativeOf (v : Byte) : (zeroOf v && negativeOf v) = false := by
  cases hz : zeroOf v with
  | false => rfl
  | true =>
    have hv : v = 0x00#8 := eq_of_beq hz
    rw [hv]
    rfl

/-- R50: flags that are those of one value are consistent. -/
theorem State.flagsConsistent_of_value {s : State} {v : Byte} (hz : s.flagZ = zeroOf v)
    (hn : s.flagN = negativeOf v) : s.flagsConsistent = true := by
  rw [State.flagsConsistent, hz, hn, zeroOf_and_negativeOf]
  rfl

/-- R64 to R66: the record the fault makes is true. -/
theorem takeUnhandledOpcode_faultRecordTrue {s : State} (hop : decodeOpcode (s.readByte s.pc) = none) :
    (takeUnhandledOpcode s).faultRecordTrue := by
  rw [takeUnhandledOpcode_eq]
  rintro op addr ⟨⟩
  exact ⟨hop, rfl, rfl⟩

theorem takeUnhandledOpcode_keeps_inv {s : State} (hinv : s.Inv)
    (hop : decodeOpcode (s.readByte s.pc) = none) : (takeUnhandledOpcode s).Inv where
  memWf := hinv.memWf
  flags := hinv.flags
  record := takeUnhandledOpcode_faultRecordTrue hop

/-- An instruction keeps the invariant of a running machine: a load sets Z and N from one value, a call writes memory
by the word write, and the status stays Running. -/
theorem exec_keeps_inv {i : Instr} {s t : State} (hinv : s.Inv) (hrun : s.status = .running)
    (h : exec i s = .next t) : t.Inv := by
  obtain ⟨v, n, -, -, rfl⟩ | ⟨target, -, rfl⟩ := exec_cases h
  · exact ⟨hinv.memWf, State.flagsConsistent_of_value (v := v) rfl rfl, State.faultRecordTrue_of_running hrun⟩
  · exact ⟨State.wf_writeWord hinv.memWf _ _, hinv.flags, State.faultRecordTrue_of_running hrun⟩

theorem step_keeps_inv {s t : State} (hinv : s.Inv) (h : step s = .next t) : t.Inv := by
  obtain ⟨hrun, ⟨-, rfl⟩ | ⟨-, hop, rfl⟩ | ⟨-, i, more, -, -, hexec⟩⟩ := step_next_cases h
  · exact hinv
  · exact takeUnhandledOpcode_keeps_inv hinv hop
  · exact exec_keeps_inv hinv hrun hexec

/-- Settles O37: an idle step, the fault and an instruction each keep it. -/
theorem stepKeepsInvariant : Obligations.StepKeepsInvariant :=
  fun _ _ => step_keeps_inv

/-! ### The fetches and the reads -/

/-- Settles O30: `FetchByte` is the read at PC and the consumption of one byte. -/
theorem fetchByteAdvances : Obligations.FetchByteAdvances :=
  fun s => ⟨s.fetchByte_eq, BitVec.toNat_add s.pc 1⟩

/-- Settles O31: `ReadByte` is the read and a charge of 1. -/
theorem readByteLeavesPc : Obligations.ReadByteLeavesPc :=
  State.readByteC_eq

/-- Settles O32: the word is `hi : lo` of the two bytes at PC, and two bytes are consumed. -/
theorem fetchWordLittleEndian : Obligations.FetchWordLittleEndian := by
  intro s
  rw [State.fetchWord_eq]
  exact ⟨toNat_wordOfBytes _ _, rfl⟩

/-! ### The writes -/

theorem State.readByte_writeByte_same (s : State) (addr : Addr) (v : Byte) :
    (s.writeByte addr v).readByte addr = v := by
  rw [State.readByte_writeByte, if_pos rfl]

theorem State.readByte_writeByte_other (s : State) {addr other : Addr} (v : Byte) (h : other ≠ addr) :
    (s.writeByte addr v).readByte other = s.readByte other := by
  rw [State.readByte_writeByte, if_neg h]

theorem State.readByte_writeWord_low (s : State) (addr w : Addr) :
    (s.writeWord addr w).readByte addr = lowByte w := by
  rw [State.readByte_writeWord, if_neg (addr_ne_add_one addr).symm, if_pos rfl]

theorem State.readByte_writeWord_high (s : State) (addr w : Addr) :
    (s.writeWord addr w).readByte (addr + 1) = highByte w := by
  rw [State.readByte_writeWord, if_pos rfl]

theorem State.readByte_writeWord_other (s : State) {addr other : Addr} (w : Addr) (hlow : other ≠ addr)
    (hhigh : other ≠ addr + 1) : (s.writeWord addr w).readByte other = s.readByte other := by
  rw [State.readByte_writeWord, if_neg hhigh, if_neg hlow]

/-- R23: two charges of 1 are 2 cycles. -/
theorem State.writeWord_eq_charge_two (s : State) (addr w : Addr) :
    s.writeWord addr w = { s with mem := (s.writeWord addr w).mem, cycles := s.cycles - 2 } := by
  rw [show s.cycles - 2 = s.cycles - 1 - 1 by omega]
  exact State.writeWord_eq s addr w

/-- R23: the memory of a word write is that of its two byte writes. -/
theorem State.writeWord_mem (s : State) (addr w : Addr) :
    (s.writeWord addr w).mem = ((s.writeByte addr (lowByte w)).writeByte (addr + 1) (highByte w)).mem := rfl

/-- Settles O29: the four laws of the word write. -/
theorem writeWordLittleEndian : Obligations.WriteWordLittleEndian :=
  fun s addr w => ⟨s.readByte_writeWord_low addr w, s.readByte_writeWord_high addr w,
    fun _ => s.readByte_writeWord_other w, s.writeWord_eq_charge_two addr w⟩

/-! ### What the instructions write -/

/-- R59, from the instruction boundary: the word pushed at `StackAddr(SP)` is PC + 2. -/
theorem exec_jsrAbs_eq (target : Addr) (s : State) :
    exec (.jsrAbs target) s = .next
      { s with
        mem := (s.writeWord (stackAddr s.sp) (s.pc + 2)).mem
        sp := s.sp + s.params.jsrSpDelta
        pc := target
        cycles := s.cycles - 6 } := by
  rw [exec_jsrAbs, State.call_eq, ← returnAddr_add_three, show s.cycles - 6 = s.cycles - 3 - 1 - 1 - 1 by omega]
  rfl

/-- R54 to R56: a load stores nothing. -/
theorem exec_load_mem {i : Instr} {operand : Byte} (s : State)
    (hi : i = .ldaImm operand ∨ i = .ldaZp operand ∨ i = .ldaZpX operand) :
    ∃ t, exec i s = .next t ∧ t.mem = s.mem := by
  obtain rfl | rfl | rfl := hi
  · exact ⟨_, exec_ldaImm operand s, rfl⟩
  · exact ⟨_, exec_ldaZp operand s, rfl⟩
  · exact ⟨_, exec_ldaZpX operand s, rfl⟩

/-- Settles O28: the laws of the byte write, and the memory of each operation made of it. -/
theorem writeByteChangesOneCell : Obligations.WriteByteChangesOneCell :=
  fun s addr v => ⟨s.readByte_writeByte_same addr v, fun _ => s.readByte_writeByte_other v, rfl,
    s.writeByte_cycles addr v, rfl, s.writeWord_mem addr, fun target => ⟨_, exec_jsrAbs_eq target s, rfl⟩,
    fun _ _ => exec_load_mem s⟩

/-- Settles O43: of the four ways a step writes, only the call names memory, and it writes one word. -/
theorem onlyJsrWritesMemory : Obligations.OnlyJsrWritesMemory := by
  intro s t addr h hne
  obtain ⟨hrun, ⟨-, rfl⟩ | ⟨-, -, rfl⟩ | ⟨-, v, n, -, -, rfl⟩ | ⟨hc, hop, target, rfl⟩⟩ := step_next_writes h
  · exact absurd rfl hne
  · exact absurd rfl hne
  · exact absurd rfl hne
  · refine ⟨hrun, hc, decodeOpcode_eq_some.mp hop, ?_⟩
    by_contra haddr
    obtain ⟨hlow, hhigh⟩ := not_or.mp haddr
    exact hne (s.readByte_writeWord_other (s.pc + 2) hlow hhigh)

/-- Where the bytes at PC are those of a word, `FetchWord` answers it. -/
theorem State.fetchWord_of_bytes {s : State} {w : Addr} (hlow : s.readByte s.pc = lowByte w)
    (hhigh : s.readByte (s.pc + 1) = highByte w) : s.fetchWord.1 = w := by
  rw [State.fetchWord_eq, hlow, hhigh]
  exact wordOfBytes_high_low w

/-- Settles O26: PC stands at the pushed word, and fetching a byte leaves memory as it is. -/
theorem jsrPushIsFetched : Obligations.JsrPushIsFetched := by
  intro s
  have hlow := s.readByte_writeWord_low (stackAddr s.sp) (s.pc + 2)
  have hhigh := s.readByte_writeWord_high (stackAddr s.sp) (s.pc + 2)
  exact ⟨_, exec_jsrAbs_eq (stackAddr s.sp) s, hlow, hhigh, State.fetchWord_of_bytes hlow hhigh⟩

end Sys2Proof.Machine

/-! ## Proofs: encoding -/

namespace Sys2Proof

/-! ### One rule for each row of the opcode map -/

section Rows

variable {op : Byte} (rest : List Byte)

theorem decode_ldaImm (hop : decodeOpcode op = some .ldaImm) (imm : Byte) :
    decode (op :: imm :: rest) = .ok (.ldaImm imm, rest) := by
  simp only [decode, hop]

theorem decode_ldaZp (hop : decodeOpcode op = some .ldaZp) (zp : Byte) :
    decode (op :: zp :: rest) = .ok (.ldaZp zp, rest) := by
  simp only [decode, hop]

theorem decode_ldaZpX (hop : decodeOpcode op = some .ldaZpX) (zp : Byte) :
    decode (op :: zp :: rest) = .ok (.ldaZpX zp, rest) := by
  simp only [decode, hop]

theorem decode_jsrAbs (hop : decodeOpcode op = some .jsrAbs) (lo hi : Byte) :
    decode (op :: lo :: hi :: rest) = .ok (.jsrAbs (wordOfBytes hi lo), rest) := by
  simp only [decode, hop]

end Rows

/-! ### What the decoder answers, inverted -/

/-- The encoding of a call to `hi : lo` has the bytes `lo`, `hi` after its opcode (R39, row abs16). -/
theorem encode_jsrAbs_wordOfBytes (hi lo : Byte) :
    encode (.jsrAbs (wordOfBytes hi lo)) = [opcodeOf .jsrAbs, lo, hi] := by
  rw [encode, encodeOperands, lowByte_wordOfBytes, highByte_wordOfBytes]
  rfl

/-- After a handled opcode either all operand bytes are there, and the bytes are the encoding of what is answered, or
the list is cut short. -/
theorem decode_handled_cases {op : Byte} {m : Mnemonic} (hop : decodeOpcode op = some m) (operands : List Byte) :
    (∃ i rest, decode (op :: operands) = .ok (i, rest) ∧ op :: operands = encode i ++ rest) ∨
      decode (op :: operands) = .error (.truncated m) := by
  have hbyte : op = opcodeOf m := decodeOpcode_eq_some.mp hop
  cases m with
  | ldaImm =>
    cases operands with
    | nil => exact .inr (by simp only [decode, hop])
    | cons imm rest => exact .inl ⟨.ldaImm imm, rest, decode_ldaImm rest hop imm, by rw [hbyte]; rfl⟩
  | ldaZp =>
    cases operands with
    | nil => exact .inr (by simp only [decode, hop])
    | cons zp rest => exact .inl ⟨.ldaZp zp, rest, decode_ldaZp rest hop zp, by rw [hbyte]; rfl⟩
  | ldaZpX =>
    cases operands with
    | nil => exact .inr (by simp only [decode, hop])
    | cons zp rest => exact .inl ⟨.ldaZpX zp, rest, decode_ldaZpX rest hop zp, by rw [hbyte]; rfl⟩
  | jsrAbs =>
    match operands with
    | [] => exact .inr (by simp only [decode, hop])
    | [lo] => exact .inr (by simp only [decode, hop])
    | lo :: hi :: rest =>
      exact .inl ⟨.jsrAbs (wordOfBytes hi lo), rest, decode_jsrAbs rest hop lo hi,
        by rw [hbyte, encode_jsrAbs_wordOfBytes]; rfl⟩

/-- R42: only an opcode of no row is refused as unhandled; a handled one can at most be cut short. -/
theorem decode_eq_unhandled_iff {op : Byte} (rest : List Byte) :
    decode (op :: rest) = .error (.unhandledOpcode op) ↔ decodeOpcode op = none := by
  refine ⟨fun h => ?_, fun hop => decode_unhandled hop rest⟩
  cases hop : decodeOpcode op with
  | none => rfl
  | some m =>
    obtain ⟨i, more, hok, -⟩ | htrunc := decode_handled_cases hop rest
    · cases hok.symm.trans h
    · cases htrunc.symm.trans h

theorem eq_encode_append_of_decode {bs : List Byte} {i : Instr} {rest : List Byte}
    (h : decode bs = .ok (i, rest)) : bs = encode i ++ rest := by
  cases bs with
  | nil => cases h
  | cons op operands =>
    cases hop : decodeOpcode op with
    | none => cases (decode_unhandled hop operands).symm.trans h
    | some m =>
      obtain ⟨j, more, hok, hbytes⟩ | htrunc := decode_handled_cases hop operands
      · cases hok.symm.trans h
        exact hbytes
      · cases htrunc.symm.trans h

/-- R42, in both directions, with the bytes of decision D1 written out. -/
theorem decodeOpcode_eq_none_iff_bytes {op : Byte} :
    decodeOpcode op = none ↔ op ≠ 0xA9#8 ∧ op ≠ 0xA5#8 ∧ op ≠ 0xB5#8 ∧ op ≠ 0x20#8 := by
  rw [decodeOpcode_eq_none]
  refine ⟨fun hne => ⟨hne .ldaImm, hne .ldaZp, hne .ldaZpX, hne .jsrAbs⟩, ?_⟩
  rintro ⟨himm, hzp, hzpX, hjsr⟩ m
  cases m with
  | ldaImm => exact himm
  | ldaZp => exact hzp
  | ldaZpX => exact hzpX
  | jsrAbs => exact hjsr

end Sys2Proof

namespace Sys2Proof.Machine

/-! ### The values of the zero-page addresses -/

theorem toNat_zext16 (b : Byte) : (zext16 b).toNat = b.toNat :=
  BitVec.toNat_setWidth_of_le (by decide)

/-- R41, row ZP8. -/
theorem toNat_zeroPageAddr (zp : Byte) : (zeroPageAddr zp).toNat = zp.toNat :=
  toNat_zext16 zp

/-- R41, row ZPX8: the sum wraps in the byte, before it is extended. -/
theorem toNat_zeroPageXAddr (zp x : Byte) : (zeroPageXAddr zp x).toNat = (zp.toNat + x.toNat) % 256 := by
  rw [zeroPageXAddr, toNat_zext16, BitVec.toNat_add]

/-! ### The statements -/

/-- Settles O2: a case for each instruction; the two bytes of a target make the target again. -/
theorem decodeEncodeRoundTrip : Obligations.DecodeEncodeRoundTrip :=
  decode_encode_append

/-- Settles O3: no byte list that is empty, unhandled or cut short decodes, and the others are encodings. -/
theorem decodedBytesAreTheEncoding : Obligations.DecodedBytesAreTheEncoding :=
  fun _ _ _ => eq_encode_append_of_decode

/-- Settles O4: the refusal says that no row has the opcode, and the rows have the four bytes. -/
theorem unhandledBytesAreTheOthers : Obligations.UnhandledBytesAreTheOthers :=
  fun _ rest => (decode_eq_unhandled_iff rest).trans decodeOpcode_eq_none_iff_bytes

/-- Settles O5: the rule of each row, what each load writes to A, and the values of the addresses and the target. -/
theorem operandAssembly : Obligations.OperandAssembly :=
  fun _ b lo hi x rest s =>
    ⟨fun hop => decode_ldaImm rest hop b, ⟨_, exec_ldaImm b s, rfl⟩,
      fun hop => decode_ldaZp rest hop b, toNat_zeroPageAddr b, ⟨_, exec_ldaZp b s, rfl⟩,
      fun hop => decode_ldaZpX rest hop b, toNat_zeroPageXAddr b x, ⟨_, exec_ldaZpX b s, rfl⟩,
      fun hop => decode_jsrAbs rest hop lo hi, toNat_wordOfBytes hi lo⟩

/-- Settles O1: the round trip at four instructions whose encodings are these bytes. -/
theorem encodingWordsDecode : Obligations.EncodingWordsDecode :=
  ⟨decode_encode_append (.ldaImm 0x80#8) [], decode_encode_append (.ldaZp 0x42#8) [],
    decode_encode_append (.ldaZpX 0xFE#8) [], decode_encode_append (.jsrAbs 0x1234#16) []⟩

end Sys2Proof.Machine

/-! ## Proofs: the execute loop -/

namespace Sys2Proof.Machine

/-! ### The bytes at PC select the step -/

theorem encode_length_le_three (i : Instr) : (encode i).length ≤ 3 := by
  cases i <;> simp [encode, encodeOperands]

theorem State.getElem_fetchWindow (s : State) {k : Nat} (h : k < s.fetchWindow.length) :
    s.fetchWindow[k] = s.readByte (s.pc + BitVec.ofNat 16 k) := by
  match k, h with
  | 0, _ => exact congrArg s.readByte (BitVec.add_zero s.pc).symm
  | 1, _ => rfl
  | 2, _ => rfl

/-- R38, R39: the decoder's window begins with the instruction whose bytes stand at PC. -/
theorem State.take_fetchWindow_of_bytes {s : State} {i : Instr}
    (hbytes : ∀ (k : Nat) (h : k < (encode i).length), s.readByte (s.pc + BitVec.ofNat 16 k) = (encode i)[k]) :
    s.fetchWindow.take (encode i).length = encode i := by
  have hlen : (s.fetchWindow.take (encode i).length).length = (encode i).length := by
    rw [List.length_take]
    exact Nat.min_eq_left (encode_length_le_three i)
  refine List.ext_getElem hlen fun k _ hk => ?_
  rw [List.getElem_take, State.getElem_fetchWindow, hbytes k hk]

/-- Settles O6: the window is the encoding and the bytes after it, and only the encoding is decoded. -/
theorem stepRunsDecodedInstruction : Obligations.StepRunsDecodedInstruction := by
  intro s i hrun hc hbytes
  refine step_of_fetchWindow (more := s.fetchWindow.drop (encode i).length) hrun hc ?_
  conv_lhs => rw [← List.take_append_drop (encode i).length s.fetchWindow,
    State.take_fetchWindow_of_bytes hbytes]

/-- Settles O9: the budget is tested before the fetch. -/
theorem exhaustedBudgetFetchesNothing : Obligations.ExhaustedBudgetFetchesNothing :=
  fun _ => step_idle

/-! ### The pseudocode -/

theorem State.consume_consume (s : State) (m n : Nat) : (s.consume m).consume n = s.consume (m + n) := by
  have hpc : s.pc + BitVec.ofNat 16 m + BitVec.ofNat 16 n = s.pc + BitVec.ofNat 16 (m + n) := by
    rw [BitVec.add_assoc, ← BitVec.ofNat_add]
  have hcycles : s.cycles - m - n = s.cycles - ((m + n : Nat) : Int) := by omega
  show { s with
          pc := s.pc + BitVec.ofNat 16 m + BitVec.ofNat 16 n
          cycles := s.cycles - m - n } = _
  rw [hpc, hcycles]
  rfl

/-- The arm of the pseudocode's dispatch R46 for each row of the opcode map. -/
def pseudoArm : Mnemonic → State → State
  | .ldaImm => pseudoLdaImm
  | .ldaZp => pseudoLdaZp
  | .ldaZpX => pseudoLdaZpX
  | .jsrAbs => pseudoJsrAbs

/-- R46: a handled opcode is fetched, and its arm runs from the byte after it. -/
theorem pseudoStep_handled {s : State} {m : Mnemonic} (hop : decodeOpcode (s.readByte s.pc) = some m) :
    pseudoStep s = pseudoArm m (s.consume 1) := by
  rw [pseudoStep, State.fetchByte_eq, decodeOpcode_eq_some.mp hop]
  cases m <;> rfl

/-- R46, R64: the last arm of the dispatch is the fault. -/
theorem pseudoStep_unhandled {s : State} (hop : decodeOpcode (s.readByte s.pc) = none) :
    pseudoStep s = takeUnhandledOpcode s := by
  have hne := decodeOpcode_eq_none.mp hop
  rw [pseudoStep, State.fetchByte_eq]
  simp only [if_neg (hne _)]
  rfl

/-- R54: fetching opcode and operand one after another consumes both bytes. -/
theorem exec_ldaImm_eq_pseudo (s : State) :
    exec (.ldaImm (s.readByte (s.pc + 1))) s = .next (pseudoLdaImm (s.consume 1)) := by
  rw [exec_ldaImm, ← s.consume_consume 1 1]
  rfl

/-- R55. -/
theorem exec_ldaZp_eq_pseudo (s : State) :
    exec (.ldaZp (s.readByte (s.pc + 1))) s = .next (pseudoLdaZp (s.consume 1)) := by
  rw [exec_ldaZp, ← s.consume_consume 1 1, zeroPageAddr, ← BitVec.zero_add (zext16 _)]
  rfl

/-- R56. -/
theorem exec_ldaZpX_eq_pseudo (s : State) :
    exec (.ldaZpX (s.readByte (s.pc + 1))) s = .next (pseudoLdaZpX (s.consume 1)) := by
  rw [exec_ldaZpX, ← s.consume_consume 1 1, zeroPageXAddr, ← BitVec.zero_add (zext16 _)]
  rfl

/-- R59: the target is fetched as a word after the opcode. -/
theorem exec_jsrAbs_eq_pseudo (s : State) :
    exec (.jsrAbs (wordOfBytes (s.readByte (s.pc + 2)) (s.readByte (s.pc + 1)))) s =
      .next (pseudoJsrAbs (s.consume 1)) := by
  rw [exec_jsrAbs, ← s.consume_consume 1 2, ← addr_add_one_one, pseudoJsrAbs, State.fetchWord_eq]
  rfl

/-- Settles O12: both sides dispatch on the opcode at PC, and each arm agrees with the meaning of its row. -/
theorem stepIsTheSpecPseudocode : Obligations.StepIsTheSpecPseudocode := by
  intro s hrun hc
  cases hop : decodeOpcode (s.readByte s.pc) with
  | none => rw [step_unhandled hrun hc hop, pseudoStep_unhandled hop]
  | some m =>
    rw [step_running hrun hc, State.fetchWindow, pseudoStep_handled hop]
    cases m with
    | ldaImm =>
      rw [decode_ldaImm _ hop]
      exact exec_ldaImm_eq_pseudo s
    | ldaZp =>
      rw [decode_ldaZp _ hop]
      exact exec_ldaZp_eq_pseudo s
    | ldaZpX =>
      rw [decode_ldaZpX _ hop]
      exact exec_ldaZpX_eq_pseudo s
    | jsrAbs =>
      rw [decode_jsrAbs _ hop]
      exact exec_jsrAbs_eq_pseudo s

/-! ### Z and N -/

theorem zeroOf_iff (v : Byte) : zeroOf v = true ↔ v.toNat = 0 :=
  beq_iff_eq.trans BitVec.toNat_inj.symm

theorem negativeOf_iff (v : Byte) : negativeOf v = true ↔ 128 ≤ v.toNat := by
  rw [negativeOf, ← BitVec.msb_eq_getLsbD_last, BitVec.msb_eq_decide, decide_eq_true_eq]

/-- R54 to R56: every load ends by assigning A and setting Z and N from it. -/
theorem exec_load_setZN {i : Instr} {operand : Byte} (s : State)
    (hi : i = .ldaImm operand ∨ i = .ldaZp operand ∨ i = .ldaZpX operand) :
    ∃ (u : State) (v : Byte), exec i s = .next ((u.setA v).setZN (u.setA v).a) := by
  obtain rfl | rfl | rfl := hi
  · exact ⟨_, _, exec_ldaImm operand s⟩
  · exact ⟨_, _, exec_ldaZp operand s⟩
  · exact ⟨_, _, exec_ldaZpX operand s⟩

/-- Settles O27: the two flags of a value exclude each other, and every load derives them from A. -/
theorem zeroNegativeDerivation : Obligations.ZeroNegativeDerivation := by
  refine ⟨fun s v => ⟨zeroOf_iff v, negativeOf_iff v, ?_, rfl⟩, fun i s operand => exec_load_setZN s⟩
  rintro ⟨hz, hn⟩
  have hzn := zeroOf_and_negativeOf v
  rw [State.setZN_flagZ] at hz
  rw [State.setZN_flagN] at hn
  rw [hz, hn] at hzn
  cases hzn

/-! ### `Execute` where its loop test fails at once -/

/-- R51: cycles and reason are read off the state left. -/
theorem execute_eq_of_state {budget : Int} {s t : State} (h : (execute budget s).state = t) :
    execute budget s = { state := t, cycles := t.cycles, reason := t.stopReason } := by
  rw [← h]
  rfl

theorem State.stopReason_of_faulted {s : State} {op : Byte} {addr : Addr} (h : s.status = .faulted op addr) :
    s.stopReason = .unhandledOpcode := by
  rw [State.stopReason, h]

/-- R49: without budget the loop test fails, whatever the status. -/
theorem State.canStep_of_cycles_le_zero {s : State} (h : s.cycles ≤ 0) : s.canStep = false :=
  Bool.eq_false_iff.mpr fun hcan => absurd (State.canStep_iff.mp hcan).2 (by omega)

/-- Settles O48: the loop test fails before the first step. -/
theorem nonpositiveBudgetRunsNothing : Obligations.NonpositiveBudgetRunsNothing := by
  intro s budget hb
  have hstate : (execute budget s).state = s.setCycles budget :=
    executeLoop_stop (State.canStep_of_cycles_le_zero (s := s.setCycles budget) hb) budget.toNat
  exact ⟨hstate, congrArg State.cycles hstate⟩

/-- Settles O49: the loop test fails, whatever the budget. -/
theorem executeOnFaultedDoesNothing : Obligations.ExecuteOnFaultedDoesNothing := by
  intro s op addr budget hs
  have hne : s.status ≠ .running := by
    rw [hs]
    nofun
  rw [execute_eq_of_state (execute_state_of_not_running hne budget),
    State.stopReason_of_faulted (s := s.setCycles budget) hs]
  rfl

/-! ### The invariant along the loop -/

theorem State.Inv.setCycles {s : State} (hinv : s.Inv) (budget : Int) : (s.setCycles budget).Inv where
  memWf := hinv.memWf
  flags := hinv.flags
  record := hinv.record

/-- Settles O38: setting the budget keeps the invariant, and each turn of the loop does. -/
theorem executeKeepsInvariant : Obligations.ExecuteKeepsInvariant :=
  fun _ budget hinv =>
    executeLoop_induction (fun _ ht hs => step_keeps_inv hs ht) budget.toNat (hinv.setCycles budget)

/-! ### The fuel never ends the loop -/

/-- Under the loop test a step goes on, and spends at least one cycle (R85). -/
theorem exists_step_next_of_canStep {s : State} (hcan : s.canStep = true) :
    ∃ t, step s = .next t ∧ t.cycles < s.cycles := by
  obtain ⟨hrun, hc⟩ := State.canStep_iff.mp hcan
  obtain ⟨t, ht⟩ := exists_step_next_of_running hrun
  exact ⟨t, ht, (cyclesOnlyFall s t ht).2 hc⟩

theorem executeLoop_eq_of_cycles_le {fuel fuel' : Nat} {s : State} (h : s.cycles.toNat ≤ fuel)
    (h' : s.cycles.toNat ≤ fuel') : executeLoop fuel s = executeLoop fuel' s := by
  induction fuel generalizing fuel' s with
  | zero =>
    have hcan : s.canStep = false := State.canStep_of_cycles_le_zero (by omega)
    rw [executeLoop_stop hcan, executeLoop_stop hcan]
  | succ fuel ih =>
    cases hcan : s.canStep with
    | false => rw [executeLoop_stop hcan, executeLoop_stop hcan]
    | true =>
      obtain ⟨-, hc⟩ := State.canStep_iff.mp hcan
      obtain ⟨t, ht, hlt⟩ := exists_step_next_of_canStep hcan
      obtain ⟨n, rfl⟩ : ∃ n, fuel' = n + 1 := ⟨fuel' - 1, by omega⟩
      rw [executeLoop_next hcan ht, executeLoop_next hcan ht]
      exact ih (by omega) (by omega)

theorem executeLoop_canStep {fuel : Nat} {s : State} (h : s.cycles.toNat ≤ fuel) :
    (executeLoop fuel s).canStep = false := by
  induction fuel generalizing s with
  | zero => exact State.canStep_of_cycles_le_zero (s := s) (by omega)
  | succ fuel ih =>
    cases hcan : s.canStep with
    | false => rwa [executeLoop_stop hcan]
    | true =>
      obtain ⟨t, ht, hlt⟩ := exists_step_next_of_canStep hcan
      rw [executeLoop_next hcan ht]
      exact ih (by omega)

/-- R51: where the loop test fails, the reason says which part of it failed. -/
theorem State.stopReason_cases {s : State} (h : s.canStep = false) :
    (s.stopReason = .budgetExhausted ∧ s.status = .running ∧ s.cycles ≤ 0) ∨
      (s.stopReason = .unhandledOpcode ∧ ∃ op addr, s.status = .faulted op addr) := by
  cases hs : s.status with
  | running =>
    have hc : ¬ 0 < s.cycles := fun hc => absurd (State.canStep_iff.mpr ⟨hs, hc⟩) (Bool.eq_false_iff.mp h)
    exact .inl ⟨by rw [State.stopReason, hs], rfl, by omega⟩
  | faulted op addr => exact .inr ⟨State.stopReason_of_faulted hs, op, addr, rfl⟩

/-- Settles O51: fuel of the budget or more is as good as the budget, and the loop test fails at the end. -/
theorem executeEndsByItsLoopTest : Obligations.ExecuteEndsByItsLoopTest :=
  fun s budget _ hfuel =>
    ⟨executeLoop_eq_of_cycles_le (s := s.setCycles budget) hfuel le_rfl, rfl,
      State.stopReason_cases (executeLoop_canStep (s := s.setCycles budget) le_rfl)⟩

/-! ### One turn, and the cycles that are left -/

theorem State.canStep_setCycles {s : State} {budget : Int} (hrun : s.status = .running) (hb : 0 < budget) :
    (s.setCycles budget).canStep = true :=
  State.canStep_iff.mpr ⟨hrun, hb⟩

theorem execute_next {s t : State} {budget : Int} (hrun : s.status = .running) (hb : 0 < budget)
    (ht : step (s.setCycles budget) = .next t) : execute budget s = execute t.cycles t := by
  have hlt : t.cycles < budget := (cyclesOnlyFall _ t ht).2 hb
  obtain ⟨n, hn⟩ : ∃ n, budget.toNat = n + 1 := ⟨budget.toNat - 1, by omega⟩
  refine execute_eq_of_state ?_
  calc executeLoop budget.toNat (s.setCycles budget)
      = executeLoop n t := by rw [hn, executeLoop_next (State.canStep_setCycles hrun hb) ht]
    _ = executeLoop t.cycles.toNat t := executeLoop_eq_of_cycles_le (by omega) le_rfl

/-- Settles O50: the turn leaves a state that holds the budget left, and the fuel left is enough for it. -/
theorem executeTakesOneStepAndGoesOn : Obligations.ExecuteTakesOneStepAndGoesOn :=
  fun _ _ _ => execute_next

/-- R85: the dearest step is JSR, of 6 cycles. -/
theorem step_cycles_ge {s t : State} (h : step s = .next t) : s.cycles - 6 ≤ t.cycles := by
  obtain ⟨-, ⟨-, rfl⟩ | ⟨-, -, rfl⟩ | ⟨-, v, n, -, hn, rfl⟩ | ⟨-, -, target, rfl⟩⟩ := step_next_writes h
  · omega
  · show s.cycles - 6 ≤ s.cycles - 1
    omega
  · show s.cycles - 6 ≤ s.cycles - n
    omega
  · exact le_rfl

theorem executeLoop_cycles_le (fuel : Nat) (s : State) : (executeLoop fuel s).cycles ≤ s.cycles :=
  executeLoop_induction (P := fun t => t.cycles ≤ s.cycles)
    (fun _ ht hle => (cyclesOnlyFall _ _ ht).1.trans hle) fuel le_rfl

/-- R48: the last step begins with at least one cycle left. -/
theorem executeLoop_cycles_ge (fuel : Nat) {s : State} (h : -5 ≤ s.cycles) :
    -5 ≤ (executeLoop fuel s).cycles := by
  refine executeLoop_induction (P := fun t => -5 ≤ t.cycles) (fun {s t} hcan ht _ => ?_) fuel h
  have hc : 0 < s.cycles := (State.canStep_iff.mp hcan).2
  have hge : s.cycles - 6 ≤ t.cycles := step_cycles_ge ht
  omega

/-- Settles O52: the first step lowers the budget and no later one raises it; the last overruns it by 5 at most. -/
theorem overrunIsAtMostFive : Obligations.OverrunIsAtMostFive := by
  intro s budget hrun hb
  refine ⟨executeLoop_cycles_ge _ (show -5 ≤ budget by omega), ?_⟩
  obtain ⟨t, ht, hlt⟩ := exists_step_next_of_canStep (State.canStep_setCycles hrun hb)
  rw [execute_next hrun hb ht]
  exact (executeLoop_cycles_le t.cycles.toNat t).trans_lt hlt

/-! ### More budget runs the same steps -/

/-- The state with `d` more cycles in its budget. -/
def State.addCycles (s : State) (d : Int) : State := s.setCycles (s.cycles + d)

section AddCycles

variable (s : State) (d : Int)

theorem State.charge_addCycles (n : Nat) : (s.addCycles d).charge n = (s.charge n).addCycles d := by
  have hcycles : s.cycles + d - n = s.cycles - n + d := by omega
  exact congrArg s.setCycles hcycles

theorem State.consume_addCycles (n : Nat) : (s.addCycles d).consume n = (s.consume n).addCycles d :=
  State.charge_addCycles (s.setPc (s.pc + BitVec.ofNat 16 n)) d n

theorem State.loadA_addCycles (v : Byte) : (s.addCycles d).loadA v = (s.loadA v).addCycles d := rfl

/-- R23, R59: the push charges its two bytes, and the call one cycle more. -/
theorem State.call_addCycles (target : Addr) : (s.addCycles d).call target = (s.call target).addCycles d := by
  have hcycles : s.cycles + d - 1 - 1 - 1 = s.cycles - 1 - 1 - 1 + d := by omega
  exact congrArg (s.call target).setCycles hcycles

theorem takeUnhandledOpcode_addCycles :
    takeUnhandledOpcode (s.addCycles d) = (takeUnhandledOpcode s).addCycles d := by
  have hcycles : s.cycles + d - 1 = s.cycles - 1 + d := by omega
  exact congrArg (takeUnhandledOpcode s).setCycles hcycles

end AddCycles

/-- No instruction reads its budget. -/
theorem exec_addCycles {i : Instr} {s t : State} (h : exec i s = .next t) (d : Int) :
    exec i (s.addCycles d) = .next (t.addCycles d) := by
  cases i with
  | ldaImm imm =>
    cases h
    rw [exec_ldaImm, State.consume_addCycles]
    rfl
  | ldaZp zp =>
    cases h
    rw [exec_ldaZp, State.consume_addCycles, State.charge_addCycles]
    rfl
  | ldaZpX zp =>
    cases h
    rw [exec_ldaZpX, State.consume_addCycles, State.charge_addCycles, State.charge_addCycles]
    rfl
  | jsrAbs target =>
    cases h
    rw [exec_jsrAbs, State.consume_addCycles, State.call_addCycles]

/-- A step that runs under a budget runs under any larger one, and leaves as much more of it. -/
theorem step_addCycles {s t : State} {d : Int} (hc : 0 < s.cycles) (hd : 0 ≤ d) (h : step s = .next t) :
    step (s.addCycles d) = .next (t.addCycles d) := by
  have hc' : 0 < (s.addCycles d).cycles := show 0 < s.cycles + d by omega
  obtain ⟨hrun, ⟨hidle, -⟩ | ⟨-, hop, rfl⟩ | ⟨-, i, more, -, hwin, hexec⟩⟩ := step_next_cases h
  · omega
  · rw [step_unhandled (s := s.addCycles d) hrun hc' hop, takeUnhandledOpcode_addCycles]
  · exact (step_of_fetchWindow (s := s.addCycles d) hrun hc' hwin).trans (exec_addCycles hexec d)

/-- The loop may stop anywhere and be called again with the cycles it has left and `d` more: the whole is one call
with `d` more. -/
theorem execute_executeLoop (fuel : Nat) (s : State) {d : Int} (hd : 0 ≤ d) :
    execute ((executeLoop fuel s).cycles + d) (executeLoop fuel s) = execute (s.cycles + d) s := by
  refine executeLoop_induction (P := fun f => execute (f.cycles + d) f = execute (s.cycles + d) s)
    (fun {u t} hcan ht hu => ?_) fuel rfl
  obtain ⟨hrun, hc⟩ := State.canStep_iff.mp hcan
  have hturn : execute (u.cycles + d) u = execute (t.cycles + d) t :=
    execute_next hrun (by omega) (step_addCycles hc hd ht)
  exact hturn.symm.trans hu

/-- Settles O53: what the second budget holds beyond what the first call left is what the one call is given more. -/
theorem twoCallsAreOne : Obligations.TwoCallsAreOne := by
  intro s first second _ hle
  have hone := execute_executeLoop first.toNat (s.setCycles first) (sub_nonneg.mpr hle)
  have hsecond : (execute first s).cycles + (second - (execute first s).cycles) = second := by omega
  calc execute second (execute first s).state
      = execute ((execute first s).cycles + (second - (execute first s).cycles)) (execute first s).state := by
        rw [hsecond]
    _ = execute (first + (second - (execute first s).cycles)) s := hone

end Sys2Proof.Machine

/-! ## Proofs: the loads of A -/

namespace Sys2Proof.Machine

/-! ### The whole next state of each load -/

/-- Settles O14: the rule of LDA #imm8, its shared operations read as one update of the state. -/
theorem ldaImmResult : Obligations.LdaImmResult :=
  exec_ldaImm

/-- Settles O15: two cycles for the fetches and one for the read are three. -/
theorem ldaZpResult : Obligations.LdaZpResult := by
  intro zp s
  rw [exec_ldaZp, show s.cycles - 3 = s.cycles - 2 - 1 by omega]
  rfl

/-- Settles O16: the index addition is the fourth cycle, and its 8-bit sum is the zero-page address. -/
theorem ldaZpXResult : Obligations.LdaZpXResult := by
  intro zp s
  rw [exec_ldaZpX, show s.cycles - 4 = s.cycles - 2 - 1 - 1 by omega]
  rfl

/-! ### The loads from memory -/

/-- R38, R39: the two bytes at PC select an instruction of length 2; the third byte of the window is not decoded. -/
theorem step_of_two_bytes {s : State} {i : Instr} (hrun : s.status = .running) (hc : 0 < s.cycles)
    (hi : encode i = [s.readByte s.pc, s.readByte (s.pc + 1)]) : step s = exec i s :=
  step_of_fetchWindow (more := [s.readByte (s.pc + 2)]) hrun hc (by rw [hi]; rfl)

/-- Settles O18: A9 and the byte after it are the encoding of LDA #imm8. -/
theorem ldaImmAtPc : Obligations.LdaImmAtPc := by
  intro s hrun hc hop
  have hstep : step s = exec (.ldaImm (s.readByte (s.pc + 1))) s :=
    step_of_two_bytes hrun hc (by rw [hop]; rfl)
  exact hstep.trans (ldaImmResult _ s)

/-- Settles O19: A5 and the byte after it are the encoding of LDA zp8. -/
theorem ldaZpAtPc : Obligations.LdaZpAtPc := by
  rintro s v hrun hc hop rfl
  have hstep : step s = exec (.ldaZp (s.readByte (s.pc + 1))) s :=
    step_of_two_bytes hrun hc (by rw [hop]; rfl)
  exact hstep.trans (ldaZpResult _ s)

/-- Settles O20: B5 and the byte after it are the encoding of LDA zp8,X. -/
theorem ldaZpXAtPc : Obligations.LdaZpXAtPc := by
  rintro s v hrun hc hop rfl
  have hstep : step s = exec (.ldaZpX (s.readByte (s.pc + 1))) s :=
    step_of_two_bytes hrun hc (by rw [hop]; rfl)
  exact hstep.trans (ldaZpXResult _ s)

/-! ### The frame -/

/-- R54 to R56: beside its fetches, a load writes the budget, and then A with Z and N. -/
theorem exec_load_eq {i : Instr} {operand : Byte} (s : State)
    (hi : i = .ldaImm operand ∨ i = .ldaZp operand ∨ i = .ldaZpX operand) :
    ∃ (left : Int) (v : Byte), exec i s = .next (((s.consume 2).setCycles left).loadA v) := by
  obtain rfl | rfl | rfl := hi
  · exact ⟨_, _, exec_ldaImm operand s⟩
  · exact ⟨_, _, exec_ldaZp operand s⟩
  · exact ⟨_, _, exec_ldaZpX operand s⟩

/-- Settles O22: neither the fetches, nor the charge, nor `loadA` names any of the components listed. -/
theorem loadFrame : Obligations.LoadFrame := by
  intro i s t operand hi h
  obtain ⟨left, v, hexec⟩ := exec_load_eq s hi
  cases hexec.symm.trans h
  exact ⟨State.readByte_congr rfl, rfl, rfl, rfl, rfl, rfl, rfl, rfl, rfl, rfl, rfl⟩

end Sys2Proof.Machine

/-! ## Proofs: the subroutine call -/

namespace Sys2Proof.Machine

/-! ### The whole next state of a call -/

/-- R57: the high byte of a push lies at `0x0101 + SP`, at SP = 0xFF too. -/
theorem stackAddr_add_one (sp : Byte) : stackAddr sp + 1 = 0x0101#16 + sp.setWidth 16 := by
  show 0x0100#16 + sp.setWidth 16 + 1#16 = 0x0101#16 + sp.setWidth 16
  rw [add_right_comm]
  rfl

/-- Settles O17: memory is that of the word write at `StackAddr(SP)`; beside it, the call writes SP, PC and the budget. -/
theorem jsrResult : Obligations.JsrResult := by
  intro target s
  have hlow := s.readByte_writeWord_low (stackAddr s.sp) (s.pc + 2)
  have hhigh := s.readByte_writeWord_high (stackAddr s.sp) (s.pc + 2)
  have hother (addr : Addr) := s.readByte_writeWord_other (addr := stackAddr s.sp) (other := addr) (s.pc + 2)
  rw [stackAddr_add_one] at hhigh hother
  have hdefault (h : s.params = defaultParams) : s.sp + s.params.jsrSpDelta = s.sp + 2 := by rw [h]; rfl
  exact ⟨_, exec_jsrAbs_eq target s, rfl, rfl, hdefault, rfl, rfl, hlow, hhigh, hother,
    rfl, rfl, rfl, rfl, rfl, rfl, rfl, rfl, rfl, rfl, rfl⟩

/-- Settles O25: the push does not read the argument, so only the SP that the call writes depends on it. -/
theorem stackDeltaMovesOnlySp : Obligations.StackDeltaMovesOnlySp :=
  fun q target s => ⟨_, exec_jsrAbs_eq target s, rfl, exec_jsrAbs_eq target { s with params := q }⟩

/-! ### The call from memory -/

/-- Settles O21: 20 and the two bytes after it are the encoding of JSR abs16 to the word they make. -/
theorem jsrAtPc : Obligations.JsrAtPc := by
  intro s hrun hc hop
  have hwin : s.fetchWindow =
      encode (.jsrAbs (wordOfBytes (s.readByte (s.pc + 2)) (s.readByte (s.pc + 1)))) ++ [] := by
    rw [encode_jsrAbs_wordOfBytes, State.fetchWindow, hop]
    rfl
  exact (step_of_fetchWindow hrun hc hwin).trans (exec_jsrAbs_eq _ s)

/-! ### The frame -/

/-- Settles O23: the word write at `StackAddr(SP)` keeps every other byte, and the call names none of the other
components listed. -/
theorem jsrFrame : Obligations.JsrFrame := by
  intro target s t h
  cases (exec_jsrAbs_eq target s).symm.trans h
  refine ⟨?_, rfl, rfl, rfl, rfl, rfl, rfl, rfl, rfl, rfl, rfl, rfl, rfl⟩
  rintro base rfl addr hlow hhigh
  exact s.readByte_writeWord_other (s.pc + 2) hlow hhigh

end Sys2Proof.Machine

/-! ## Proofs: the fault -/

namespace Sys2Proof.Machine

/-! ### Taking the fault, and the halt after it -/

/-- Settles O8: a byte that is none of the four selects no row, and the fault is the opcode fetch and the record. -/
theorem unhandledOpcodeEntry : Obligations.UnhandledOpcodeEntry := by
  intro s hrun hc himm hzp hzpX hjsr
  have hop : decodeOpcode (s.readByte s.pc) = none := decodeOpcode_eq_none_iff_bytes.mpr ⟨himm, hzp, hzpX, hjsr⟩
  rw [step_unhandled hrun hc hop, takeUnhandledOpcode_eq]

/-- Settles O10: the status is tested before the budget. -/
theorem faultedMachineHalts : Obligations.FaultedMachineHalts :=
  fun _ _ _ => step_faulted

/-! ### Safe runs -/

/-- A step that goes on starts in a safe state, so only what it leaves has to be safe. -/
theorem safeRun_succ_of_step {n : Nat} {s t : State} (h : step s = .next t) : SafeRun (n + 1) s ↔ SafeRun n t := by
  constructor
  · rintro ⟨-, u, hu, hsafe⟩
    cases h.symm.trans hu
    exact hsafe
  · exact fun hsafe => ⟨(step_next_cases h).1, t, h, hsafe⟩

/-- Settles O47, by induction on the number of steps: from a running machine the first step goes on in both runs; from
a faulted one neither run goes on, because no step leaves a fault. -/
theorem safeRunsEndRunning : Obligations.SafeRunsEndRunning := by
  intro n
  induction n with
  | zero =>
    intro s
    constructor
    · exact fun hsafe => ⟨s, rfl, hsafe⟩
    · rintro ⟨t, ⟨⟩, hrun⟩
      exact hrun
  | succ n ih =>
    intro s
    cases hs : s.status with
    | running =>
      obtain ⟨t, ht⟩ := exists_step_next_of_running hs
      rw [safeRun_succ_of_step ht, run_next ht]
      exact ih t
    | faulted op addr =>
      rw [run_fault (step_faulted hs)]
      constructor
      · rintro ⟨hsafe, -⟩
        cases hs.symm.trans hsafe
      · rintro ⟨t, ⟨⟩, -⟩

end Sys2Proof.Machine

/-! ## Proofs: reset, the host's operations, and the cycle costs -/

namespace Sys2Proof.Machine

/-! ### Reading back a list of bytes that was loaded -/

theorem addr_add_one_add_ofNat (a : Addr) (k : Nat) : a + 1 + BitVec.ofNat 16 k = a + BitVec.ofNat 16 (k + 1) := by
  rw [BitVec.add_assoc, Nat.add_comm k 1, BitVec.ofNat_add]
  rfl

/-- Fewer than 2^16 steps up, no address is met again. -/
theorem addr_add_ofNat_ne (a : Addr) {k : Nat} (hpos : 0 < k) (hk : k < 2 ^ 16) : a + BitVec.ofNat 16 k ≠ a := by
  intro h
  have hzero : BitVec.ofNat 16 k = 0#16 := add_eq_left.mp h
  have hmod : k % 2 ^ 16 = 0 := congrArg BitVec.toNat hzero
  rw [Nat.mod_eq_of_lt hk] at hmod
  omega

/-- R37: loading bytes leaves the PC where it is. -/
@[simp] theorem State.writeBytes_pc (s : State) (addr : Addr) (bs : List Byte) : (s.writeBytes addr bs).pc = s.pc := by
  rw [State.writeBytes_eq]

/-- R22, for a list: "no other cell changes". -/
theorem State.readByte_writeBytes_other (s : State) (addr : Addr) {other : Addr} {bs : List Byte}
    (h : ∀ k < bs.length, other ≠ addr + BitVec.ofNat 16 k) :
    (s.writeBytes addr bs).readByte other = s.readByte other := by
  induction bs generalizing s addr with
  | nil => rfl
  | cons b bs ih =>
    have hhead : other ≠ addr := by
      have hzero := h 0 (Nat.zero_lt_succ _)
      rwa [BitVec.add_zero] at hzero
    have htail : ∀ k < bs.length, other ≠ addr + 1 + BitVec.ofNat 16 k := fun k hk => by
      rw [addr_add_one_add_ofNat]
      exact h (k + 1) (Nat.succ_lt_succ hk)
    calc (s.writeBytes addr (b :: bs)).readByte other
        = (s.writeByte addr b).readByte other := ih (s.writeByte addr b) (addr + 1) htail
      _ = s.readByte other := s.readByte_writeByte_other b hhead

/-- R37: a list no longer than the store does not overwrite its own beginning, so each byte is read back. -/
theorem State.readByte_writeBytes (s : State) (addr : Addr) {bs : List Byte} (hlen : bs.length ≤ 2 ^ 16)
    {k : Nat} (hk : k < bs.length) : (s.writeBytes addr bs).readByte (addr + BitVec.ofNat 16 k) = bs[k] := by
  induction bs generalizing s addr k with
  | nil => exact absurd hk (Nat.not_lt_zero k)
  | cons b bs ih =>
    rw [List.length_cons] at hlen hk
    cases k with
    | zero =>
      have hne : ∀ j < bs.length, addr ≠ addr + 1 + BitVec.ofNat 16 j := fun j hj => by
        rw [addr_add_one_add_ofNat]
        exact (addr_add_ofNat_ne addr (Nat.succ_pos j) (by omega)).symm
      rw [BitVec.add_zero]
      exact ((s.writeByte addr b).readByte_writeBytes_other (addr + 1) hne).trans
        (s.readByte_writeByte_same addr b)
    | succ k =>
      rw [← addr_add_one_add_ofNat]
      exact ih (s.writeByte addr b) (addr + 1) (by omega) (by omega)

/-! ### A table word placed at PC -/

/-- The decoder reads from a table word what it reads from the word's three bytes. -/
theorem decode_tableWordBytes {nbits w : Nat} {i : Instr} (h : decodeTableWord nbits w = some i) :
    ∃ more, decode (tableWordBytes nbits w) = .ok (i, more) := by
  unfold decodeTableWord at h
  split at h
  next j more hdecode =>
    cases h
    exact ⟨more, hdecode⟩
  next => cases h

theorem State.withFetchWord_pc (s : State) (nbits w : Nat) : (s.withFetchWord nbits w).pc = s.pc :=
  s.writeBytes_pc s.pc (tableWordBytes nbits w)

theorem State.withFetchWord_cycles_pos (s : State) (nbits w : Nat) : 0 < (s.withFetchWord nbits w).cycles :=
  lt_max_of_lt_right Int.one_pos

/-- The three bytes of a table word are the decoder's whole window. -/
theorem State.withFetchWord_fetchWindow (s : State) (nbits w : Nat) :
    (s.withFetchWord nbits w).fetchWindow = tableWordBytes nbits w := by
  refine List.ext_getElem rfl fun k hk hk' => ?_
  rw [State.getElem_fetchWindow, State.withFetchWord_pc]
  exact s.readByte_writeBytes s.pc (bs := tableWordBytes nbits w) (show 3 ≤ 2 ^ 16 by decide) hk'

/-- Settles O7: the window is the placed word, and bytes that decode begin with the encoding of the instruction. -/
theorem placedWordRunsNext : Obligations.PlacedWordRunsNext := by
  intro s nbits w i h
  obtain ⟨more, hdecode⟩ := decode_tableWordBytes h
  exact step_of_fetchWindow rfl (s.withFetchWord_cycles_pos nbits w)
    ((s.withFetchWord_fetchWindow nbits w).trans (eq_encode_append_of_decode hdecode))

/-! ### The canonical form of memory -/

@[simp] theorem State.setRegister_mem (s : State) (r : RegisterName) (v : Byte) : (s.setRegister r v).mem = s.mem := by
  cases r <;> rfl

@[simp] theorem State.setFlag_mem (s : State) (f : FlagName) (bit : Bool) : (s.setFlag f bit).mem = s.mem := by
  cases f <;> rfl

/-- Of the four ways a step writes, only the call names memory, and it writes one word. -/
theorem step_keeps_memWf {s t : State} (h : step s = .next t) (hwf : s.mem.wf = true) : t.mem.wf = true := by
  obtain ⟨-, ⟨-, rfl⟩ | ⟨-, -, rfl⟩ | ⟨-, v, n, -, -, rfl⟩ | ⟨-, -, target, rfl⟩⟩ := step_next_writes h
  · exact hwf
  · exact hwf
  · exact hwf
  · exact State.wf_writeWord hwf (stackAddr s.sp) (s.pc + 2)

theorem execute_keeps_memWf {s : State} (hwf : s.mem.wf = true) (budget : Int) :
    (execute budget s).state.mem.wf = true :=
  executeLoop_induction (P := fun t => t.mem.wf = true) (fun _ => step_keeps_memWf) budget.toNat
    (s := s.setCycles budget) hwf

/-- Settles O39: Reset empties the store, a load is one byte write, Execute goes by the induction over its loop, and
no other operation names memory. -/
theorem hostOpsKeepMemoryCanonical : Obligations.HostOpsKeepMemoryCanonical := by
  intro op s hwf
  cases op with
  | reset => exact Memory.wf_nil
  | load addr byte => exact State.wf_writeByte hwf addr byte
  | setRegister r v =>
    show (s.setRegister r v).mem.wf = true
    rwa [State.setRegister_mem]
  | setPc v => exact hwf
  | setFlag f bit =>
    show (s.setFlag f bit).mem.wf = true
    rwa [State.setFlag_mem]
  | execute budget => exact execute_keeps_memWf hwf budget
  | inspect => exact hwf

/-! ### The cycle costs -/

/-- Settles O24: each cost is read off the whole next state of the instruction, or of the fault. -/
theorem instructionCosts : Obligations.InstructionCosts :=
  fun s => ⟨fun imm => ⟨_, ldaImmResult imm s, rfl⟩, fun zp => ⟨_, ldaZpResult zp s, rfl⟩,
    fun zp => ⟨_, ldaZpXResult zp s, rfl⟩, fun target => ⟨_, exec_jsrAbs_eq target s, rfl⟩,
    congrArg State.cycles (takeUnhandledOpcode_eq s)⟩

/-! ### The first instruction after Reset -/

/-- Settles O35: Reset leaves a running machine with PC at 0xFFFC, and its step runs the bytes that stand at PC. -/
theorem firstInstructionIsAtFFFC : Obligations.FirstInstructionIsAtFFFC := by
  rintro before loaded budget s i rfl hbudget hbytes
  exact ⟨rfl, stepRunsDecodedInstruction _ i rfl hbudget hbytes⟩

end Sys2Proof.Machine
